-- ==== Sys2Proof/Word.lean ====
section
/-! DEFINITION. The fixed-width values of the spec (00_scope.md R8, R11): bit 0 is the least significant bit, every value is unsigned. -/

namespace Sys2Proof

/-- An 8-bit value: a controller byte or a payload byte (R11). -/
abbrev Byte := BitVec 8

/-- A 4-bit value: what one half-width transfer carries (R11, R14). -/
abbrev Nibble := BitVec 4

/-- A 7-bit DDRAM address, passed through uninterpreted (R8). -/
abbrev Address := BitVec 7

/-- A 12-bit count: the length of a WRITE (R35, R85, R90). -/
abbrev Count := BitVec 12

/-- A 16-bit host request or response word (R81, R90). -/
abbrev Word := BitVec 16

end Sys2Proof
end

