-- ==== Sys2Proof/Config.lean ====
section
/-! DEFINITION. The implementation parameters of 00_scope.md R7 and the model's free values. -/

namespace Sys2Proof

/-- `BUS_WIDTH` (R3, R7, R33): 4 or 8 data lines, fixed at construction. -/
inductive BusWidth where
  | half
  | full
deriving DecidableEq, Repr

/-- `W`, the number of data lines (R7). -/
def BusWidth.lines : BusWidth → Nat
  | .half => 4
  | .full => 8

/-- The duration parameters of R7, by name. A Wait names one (R12); no rule depends on its length (R233). -/
inductive Duration where
  | powerOn
  | pulse
  | wait
  | wake1
  | wake2
  | wake3
  | clear
deriving DecidableEq, Repr

/-- PARAMETER (R7, S10, D26; log 2): which numbers besides 0 stand for an error value of this platform's pins. Nothing can
be proved of it, so `PinErr` is an arbitrary type of one error value or more. -/
opaque Config.hasPinErr : Nat → Bool

/-- `PinErr` (R7, S10, D26): the type of the error value that a failed pin write returns, a parameter of the model (log 2). -/
abbrev PinErr : Type := { k : Nat // (k == 0 || Config.hasPinErr k) = true }

/-- The pin set's answer to a PinWrite (R12, R203). -/
inductive PinAnswer where
  | ok
  | err (e : PinErr)
deriving DecidableEq, Repr, Inhabited

/-- `MAX_WRITE_LEN` (R7, R81). -/
def maxWriteLen : Nat := 4095

/-- The bus width of the block that `State.reset` constructs (DESIGN CHOICE, log 1); `State.create` takes either. -/
def Config.busWidth : BusWidth := .half

/-- FREE VALUE (S11, R191, R203; log 3): the pin set's k-th answer past the end of the answers the state lists. -/
opaque Config.pinAnswer : Nat → PinAnswer

/-- FREE VALUE (S12, R225; log 12): the length of each duration parameter, in nanoseconds. No step reads it. -/
opaque Config.durationNs : Duration → Nat

/-- The supply range that a timing bound depends on (R225, R230). -/
inductive Supply where
  | fiveVolt
  | threeVolt
deriving DecidableEq, Repr, Inhabited

/-- FREE VALUE (R225, R230; log 20): the controller's supply. -/
opaque Config.supply : Supply

/-- FREE VALUE (R225; log 20): the frequency of the controller's oscillator, in kHz. -/
opaque Config.oscillatorKhz : Nat

/-- FREE VALUE (R230; log 20, log 21): the least time the platform takes for a pin write, in nanoseconds. -/
opaque Config.pinWriteNs : Nat

/-- FREE VALUE (R224; log 20): does the controller's supply rise no later than the admission of INIT? -/
opaque Config.supplyInTime : Bool

/-- FREE VALUE (R231; log 20): does nothing but the block write its lines? -/
opaque Config.soleOwner : Bool

end Sys2Proof
end

