-- ==== Sys2Proof/Syntax.lean ====
section
/-! DEFINITION. The instructions: one constructor for each row of spec/opcode_table.json (30_encoding.md R80 to R86, R91 to R98). -/

namespace Sys2Proof

/-- The first five are the host requests of R81; the other eight are the controller transfers the block sends (R91). -/
inductive Instr where
  /-- INIT (R82): line count, entry-mode direction, entry-mode shift. -/
  | init (n id s : Bool)
  /-- SET_DISPLAY_CONTROL (R83): display on, cursor visible, cursor blink. -/
  | setDisplayControl (d c b : Bool)
  /-- SEEK (R84): absolute DDRAM address. -/
  | seek (a : Address)
  /-- WRITE (R85): the payload bytes; their number is the field LEN. -/
  | write (bytes : List Byte)
  /-- ABORT (R86). -/
  | abort
  /-- BUS_CLEAR_DISPLAY (R94). -/
  | busClearDisplay
  /-- BUS_ENTRY_MODE_SET (R95): direction, shift. -/
  | busEntryModeSet (id s : Bool)
  /-- BUS_DISPLAY_CONTROL (R93): display on, cursor visible, cursor blink. -/
  | busDisplayControl (d c b : Bool)
  /-- BUS_FUNCTION_SET (R92): data length, line count. -/
  | busFunctionSet (dl n : Bool)
  /-- BUS_SET_DDRAM_ADDRESS (R96). -/
  | busSetDdramAddress (a : Address)
  /-- BUS_WRITE_DATA (R97). -/
  | busWriteData (v : Byte)
  /-- BUS_WAKE_NIBBLE (R98), HALF only. -/
  | busWakeNibble
  /-- BUS_SWITCH_NIBBLE (R98), HALF only. -/
  | busSwitchNibble
deriving DecidableEq, Repr

end Sys2Proof
end

