-- ==== Sys2Proof/WellFormed.lean ====
section
/-! DEFINITION. Which instruction terms are instructions: the one bound that the types do not carry (30_encoding.md R81, R85; S14). -/

namespace Sys2Proof

/-- A WRITE has at most MAX_WRITE_LEN payload bytes (R81, R85); every other term is bounded by its types. -/
def Instr.wellFormed : Instr → Bool
  | .write bytes => decide (bytes.length ≤ maxWriteLen)
  | .init _ _ _ => true
  | .setDisplayControl _ _ _ => true
  | .seek _ => true
  | .abort => true
  | .busClearDisplay => true
  | .busEntryModeSet _ _ => true
  | .busDisplayControl _ _ _ => true
  | .busFunctionSet _ _ => true
  | .busSetDdramAddress _ => true
  | .busWriteData _ => true
  | .busWakeNibble => true
  | .busSwitchNibble => true

end Sys2Proof
end

