-- ==== Sys2Proof/Decode.lean ====
section
/-! DEFINITION. Decoding and encoding of the three formats of spec/opcode_table.json (30_encoding.md R81 to R89, R91 to R98, section 3). -/

namespace Sys2Proof

/-- What carries an instruction, by the table's format: a request word with the payload bytes delivered with it
(R81, R89), a 9-bit byte value `RS : DB7..DB0`, or a 5-bit nibble value `RS : DB7..DB4` (R91). -/
inductive Packet where
  | request (q : Word) (payload : List Byte)
  | busByte (t : BitVec 9)
  | busNibble (t : BitVec 5)
deriving DecidableEq, Repr

/-- Why a packet is no instruction. -/
inductive Reject where
  /-- Opcode 0x0 or 0x6 .. 0xF (R87). -/
  | reservedOpcode
  /-- A reserved bit is set (R88). -/
  | reservedBits
  /-- The payload is not exactly the bytes the word announces (R85, R89; log 6). -/
  | payloadLength
  /-- The transfer matches no row of the table (R99). -/
  | noSuchTransfer
deriving DecidableEq, Repr

/-! ## Decoding -/

/-- A one-word request (R89): its reserved bits are zero (R88) and no payload comes with it. -/
def oneWord (reserved : Bool) (payload : List Byte) (i : Instr) : Except Reject Instr :=
  if reserved then .error .reservedBits
  else if payload.isEmpty then .ok i
  else .error .payloadLength

/-- Decoding of a host request: the opcode is `q[15:12]` (R81), the fields are those of R82 to R86. -/
def decodeRequest (q : Word) (payload : List Byte) : Except Reject Instr :=
  match (q.extractLsb' 12 4).toNat with
  | 1 => oneWord (q.extractLsb' 3 9 != 0#9) payload (.init (q.getLsbD 2) (q.getLsbD 1) (q.getLsbD 0))
  | 2 => oneWord (q.extractLsb' 3 9 != 0#9) payload (.setDisplayControl (q.getLsbD 2) (q.getLsbD 1) (q.getLsbD 0))
  | 3 => oneWord (q.extractLsb' 7 5 != 0#5) payload (.seek (q.extractLsb' 0 7))
  | 4 => if payload.length = (q.extractLsb' 0 12).toNat then .ok (.write payload) else .error .payloadLength
  | 5 => oneWord (q.extractLsb' 0 12 != 0#12) payload .abort
  | _ => .error .reservedOpcode

/-- Decoding of a byte value `RS : v` (R92 to R97); a value that is no row of section 3 is rejected (R99). -/
def decodeByte (t : BitVec 9) : Except Reject Instr :=
  if t.getLsbD 8 then .ok (.busWriteData (t.extractLsb' 0 8))
  else if t.getLsbD 7 then .ok (.busSetDdramAddress (t.extractLsb' 0 7))
  else if t.extractLsb' 5 4 = 0b0001#4 ∧ t.extractLsb' 0 3 = 0#3 then .ok (.busFunctionSet (t.getLsbD 4) (t.getLsbD 3))
  else if t.extractLsb' 3 6 = 0b000001#6 then .ok (.busDisplayControl (t.getLsbD 2) (t.getLsbD 1) (t.getLsbD 0))
  else if t.extractLsb' 2 7 = 0b0000001#7 then .ok (.busEntryModeSet (t.getLsbD 1) (t.getLsbD 0))
  else if t = 0b000000001#9 then .ok .busClearDisplay
  else .error .noSuchTransfer

/-- Decoding of a lone nibble value `RS : x` (R98). -/
def decodeNibble (t : BitVec 5) : Except Reject Instr :=
  if t = 0b00011#5 then .ok .busWakeNibble
  else if t = 0b00010#5 then .ok .busSwitchNibble
  else .error .noSuchTransfer

/-- The decoder: total, and it rejects by name. -/
def decode : Packet → Except Reject Instr
  | .request q payload => decodeRequest q payload
  | .busByte t => decodeByte t
  | .busNibble t => decodeNibble t

/-! ## Encoding -/

/-- A one-bit field. -/
def fieldBit (b : Bool) : BitVec 1 := BitVec.ofBool b

/-- The encoder, from the patterns of section 3: fixed bits and fields side by side, most significant first. -/
def encode : Instr → Packet
  | .init n id s => .request (0b0001#4 ++ 0#9 ++ fieldBit n ++ fieldBit id ++ fieldBit s) []
  | .setDisplayControl d c b => .request (0b0010#4 ++ 0#9 ++ fieldBit d ++ fieldBit c ++ fieldBit b) []
  | .seek a => .request (0b0011#4 ++ 0#5 ++ a) []
  | .write bytes => .request (0b0100#4 ++ BitVec.ofNat 12 bytes.length) bytes
  | .abort => .request (0b0101#4 ++ 0#12) []
  | .busClearDisplay => .busByte 0b000000001#9
  | .busEntryModeSet id s => .busByte (0b0000001#7 ++ fieldBit id ++ fieldBit s)
  | .busDisplayControl d c b => .busByte (0b000001#6 ++ fieldBit d ++ fieldBit c ++ fieldBit b)
  | .busFunctionSet dl n => .busByte (0b0001#4 ++ fieldBit dl ++ fieldBit n ++ 0b000#3)
  | .busSetDdramAddress a => .busByte (0b01#2 ++ a)
  | .busWriteData v => .busByte (0b1#1 ++ v)
  | .busWakeNibble => .busNibble 0b00011#5
  | .busSwitchNibble => .busNibble 0b00010#5

/-! ## The opcode table -/

/-- One row of the opcode map (section 3): the mask of its fixed bits and their values. -/
structure OpcodeRow where
  mask : Nat
  value : Nat
deriving DecidableEq, Repr

/-- Section 3's rows for host request words, in its order. -/
def requestRows : List OpcodeRow :=
  [⟨0xFFF8, 0x1000⟩, ⟨0xFFF8, 0x2000⟩, ⟨0xFF80, 0x3000⟩, ⟨0xF000, 0x4000⟩, ⟨0xFFFF, 0x5000⟩]

/-- Section 3's rows for byte values, in its order. -/
def byteRows : List OpcodeRow :=
  [⟨0x1FF, 0x001⟩, ⟨0x1FC, 0x004⟩, ⟨0x1F8, 0x008⟩, ⟨0x1E7, 0x020⟩, ⟨0x180, 0x080⟩, ⟨0x100, 0x100⟩]

/-- Section 3's rows for nibble values, in its order. -/
def nibbleRows : List OpcodeRow := [⟨0x1F, 0x03⟩, ⟨0x1F, 0x02⟩]

/-- A value matches a row when its bits under the mask are the row's. -/
def OpcodeRow.covers (r : OpcodeRow) (v : Nat) : Bool := v &&& r.mask == r.value

/-- The rows of section 3 that a packet's word or value matches. -/
def Packet.rows : Packet → List OpcodeRow
  | .request q _ => requestRows.filter (·.covers q.toNat)
  | .busByte t => byteRows.filter (·.covers t.toNat)
  | .busNibble t => nibbleRows.filter (·.covers t.toNat)

/-- An instruction's own row of section 3. -/
def Instr.opcodeRow : Instr → OpcodeRow
  | .init _ _ _ => ⟨0xFFF8, 0x1000⟩
  | .setDisplayControl _ _ _ => ⟨0xFFF8, 0x2000⟩
  | .seek _ => ⟨0xFF80, 0x3000⟩
  | .write _ => ⟨0xF000, 0x4000⟩
  | .abort => ⟨0xFFFF, 0x5000⟩
  | .busClearDisplay => ⟨0x1FF, 0x001⟩
  | .busEntryModeSet _ _ => ⟨0x1FC, 0x004⟩
  | .busDisplayControl _ _ _ => ⟨0x1F8, 0x008⟩
  | .busFunctionSet _ _ => ⟨0x1E7, 0x020⟩
  | .busSetDdramAddress _ => ⟨0x180, 0x080⟩
  | .busWriteData _ => ⟨0x100, 0x100⟩
  | .busWakeNibble => ⟨0x1F, 0x03⟩
  | .busSwitchNibble => ⟨0x1F, 0x02⟩

/-! ## Words numbered as the table numbers them -/

/-- The payload bytes of a WRITE in a number whose bits 15..0 are the request word: byte k at bits 23+8k .. 16+8k. -/
def tablePayload (len w : Nat) : List Byte :=
  (List.range len).map fun k => BitVec.ofNat 8 (w >>> (16 + 8 * k))

/-- The packet that the bits `w` of a table row stand for. A row of at most 8 bits is a nibble value and one of 9 to 15
bits a byte value. In 16 bits or more, a value below 0x200 is a byte value, since a request word that small has the
reserved opcode 0 (log 9); any other is a request word, with its payload above it. -/
def tablePacket (nbits w : Nat) : Option Packet :=
  if nbits ≤ 8 then (if w < 32 then some (.busNibble (BitVec.ofNat 5 w)) else none)
  else if w < 512 then some (.busByte (BitVec.ofNat 9 w))
  else if nbits < 16 then none
  else if w / 4096 % 16 = 4 then some (.request (BitVec.ofNat 16 w) (tablePayload (w % 4096) w))
  else if w < 65536 then some (.request (BitVec.ofNat 16 w) [])
  else none

/-- The instruction the decoder reads from a table row's bits. -/
def decodeTableWord (nbits w : Nat) : Option Instr :=
  match tablePacket nbits w with
  | some p =>
    match decode p with
    | .ok i => some i
    | .error _ => none
  | none => none

end Sys2Proof
end

