-- ==== Sys2Proof/Machine/Operands.lean ====
section
/-! DEFINITION. Operand values (10_state.md R42 to R44) and the controller bytes they form by OR into fixed patterns
(30_encoding.md R92 to R98, R100); the nibble split (40_bus_framer.md R126). -/

namespace Sys2Proof.Machine

/-- `DisplayControl` (R42): on, cursor visible, cursor blink; the default is all off. -/
structure DisplayControl where
  d : Bool := false
  c : Bool := false
  b : Bool := false
deriving DecidableEq, Repr

/-- `EntryMode` (R43): `id` is 1 for increment, `s` is 1 for display shift on. -/
structure EntryMode where
  id : Bool
  s : Bool
deriving DecidableEq, Repr

/-- `Lines` (R44). -/
inductive LineCount where
  | oneLine
  | twoLines
deriving DecidableEq, Repr

/-- The bit N of a line count: 0 = OneLine, 1 = TwoLines (R44). -/
def LineCount.bit : LineCount → Bool
  | .oneLine => false
  | .twoLines => true

/-- The INIT request of a line count and an entry mode (R81, R82). -/
def initOf (lines : LineCount) (mode : EntryMode) : Instr := .init lines.bit mode.id mode.s

/-- The SET_DISPLAY_CONTROL request of a display-control record (R81, R83). -/
def displayControlOf (dc : DisplayControl) : Instr := .setDisplayControl dc.d dc.c dc.b

/-- The byte with bit k equal to `b` and every other bit 0. -/
def bitAt (b : Bool) (k : Nat) : Byte := if b then 1#8 <<< k else 0#8

/-- `FS(dl, n, f) = 0x20 | dl<<4 | n<<3 | f<<2` (R92). -/
def functionSet (dl n f : Bool) : Byte := 0x20#8 ||| bitAt dl 4 ||| bitAt n 3 ||| bitAt f 2

/-- `DC(d, c, b) = 0x08 | d<<2 | c<<1 | b` (R93). -/
def displayControl (d c b : Bool) : Byte := 0x08#8 ||| bitAt d 2 ||| bitAt c 1 ||| bitAt b 0

/-- `CLR = 0x01` (R94). -/
def clearDisplay : Byte := 0x01#8

/-- `EM(id, s) = 0x04 | id<<1 | s` (R95). -/
def entryModeSet (id s : Bool) : Byte := 0x04#8 ||| bitAt id 1 ||| bitAt s 0

/-- `SDA(a) = 0x80 | a` (R96). -/
def setDdramAddress (a : Address) : Byte := 0x80#8 ||| a.zeroExtend 8

/-- The wake-up nibble of a HALF bus (R98). -/
def wakeNibble : Nibble := 0x3#4

/-- The switch nibble of a HALF bus (R98). -/
def switchNibble : Nibble := 0x2#4

/-- `v[7:4]` (R126). -/
def highNibble (v : Byte) : Nibble := v.extractLsb' 4 4

/-- `v[3:0]` (R126). -/
def lowNibble (v : Byte) : Nibble := v.extractLsb' 0 4

end Sys2Proof.Machine
end

