-- ==== Sys2Proof/Machine/State.lean ====
section
/-! DEFINITION. The block's state (10_state.md R31 to R38, R45), the data of the other agents (00_scope.md R9), and why a step can stop. -/

namespace Sys2Proof.Machine

/-- `st.phase` (R31). -/
inductive Phase where
  | uninit
  | initSeq
  | ready
  | opSeq
deriving DecidableEq, Repr

/-- `st.cur_op` (R35). -/
inductive CurOp where
  | none
  | init
  | setDisplayControl
  | seek
  | write
deriving DecidableEq, Repr

/-- The level of an output line (R36): `u` is U, unspecified. -/
inductive Level where
  | zero
  | one
  | u
deriving DecidableEq, Repr

/-- An output line (R12, R36, R200). Lines `d i` exist for i below W. -/
inductive Line where
  | e
  | rs
  | d (i : Nat)
deriving DecidableEq, Repr

/-- A micro-operation (R12): `pinWrite p true` drives line p to level 1. No other exists (R129). -/
inductive MicroOp where
  | pinWrite (p : Line) (l : Bool)
  | wait (t : Duration)
deriving DecidableEq, Repr

/-- One entry of the trace (R10): a micro-operation the block performed, with its outcome. -/
structure TraceEntry where
  op : MicroOp
  outcome : PinAnswer
deriving DecidableEq, Repr

/-- The output line levels `st.out_E`, `st.out_RS` and `st.out_D[0]`, `st.out_D[1]`, … (R36). -/
structure OutLines where
  e : Level
  rs : Level
  d : List Level
deriving DecidableEq, Repr

/-- A response (R90). -/
inductive Response where
  | ok (count : Count)
  | err (e : PinErr)
deriving DecidableEq, Repr

/-- When the host issues a request (R9; log 5): as soon as no operation is in progress, or after a number of block turns. -/
inductive Pace where
  | whenIdle
  | afterTurns (n : Nat)
deriving DecidableEq, Repr

/-- One coming request of the host (R9; log 5), or one transmission to run as a whole (log 8). -/
structure Arrival where
  pace : Pace
  packet : Packet
deriving DecidableEq, Repr

/-- The state. The fields up to `refused` are the block's (R31 to R38); `width` is its parameter (R7, R33); `trace` is the
observation of R10; `inbox` is the host's data, `answers` and `draws` are the pin set's (R9). -/
structure State where
  /-- BUS_WIDTH (R7, R33): fixed at construction; no step changes it. -/
  width : BusWidth
  /-- R31 -/
  phase : Phase
  /-- R32: line count, 1 = two lines. -/
  cfgN : Bool
  /-- R32: entry-mode direction, 1 = increment. -/
  cfgId : Bool
  /-- R32: entry-mode display shift, 1 = on. -/
  cfgS : Bool
  /-- R34: the micro-operations of the operation in progress. -/
  seq : List MicroOp
  /-- R34: the index of the next micro-operation. -/
  upc : Nat
  /-- R35 -/
  curOp : CurOp
  /-- R35: the length of the WRITE in progress. -/
  wrLen : Count
  /-- R36 -/
  out : OutLines
  /-- R37: the responses returned, oldest first. -/
  respLog : List Response
  /-- R38 -/
  refused : Bool
  /-- R10: the micro-operations performed, oldest first (log 14). -/
  trace : List TraceEntry
  /-- The host's coming requests, in order (log 5). -/
  inbox : List Arrival
  /-- The pin set's coming answers, in order (log 3). -/
  answers : List PinAnswer
  /-- MODEL'S OWN: how many answers were drawn past the end of `answers` (log 3). -/
  draws : Nat
deriving DecidableEq, Repr

/-- Why a step stops with a fault. -/
inductive Fault where
  /-- Raised by a block turn whose next micro-operation writes a data line `D[i]` with i not below W: R36 gives the block
  no such line. Safe: no state that coheres holds one (log 15). -/
  | lineNotOnBus
deriving DecidableEq, Repr

/-- Why a step or an instruction is refused. -/
inductive Refusal where
  /-- Raised by an arm of `exec` whose instruction has no meaning yet. Safe. -/
  | notModelled (mnemonic : String)
  /-- Raised by `step` once `st.refused` is set: "the model gives the run no meaning" (R38; log 7). Safe. -/
  | runWithoutMeaning
  /-- Raised by a controller-transfer row whose transmission is not what stands next in `st.seq`: the block sends nothing
  but its sequence, in order (R70, R129; log 8). Safe. -/
  | transferNotDue
  /-- Raised by `step` at a bus packet that is no row of the table: the block never sends it (R99). Safe. -/
  | noSuchTransfer
  /-- Raised by WRITE on a term that no request word encodes, of more than 4095 bytes (R81, S14; log 19). Safe. -/
  | payloadTooLong
deriving DecidableEq, Repr

/-- All lines U: the block drives no line (R45). -/
def OutLines.undriven (w : BusWidth) : OutLines := ⟨.u, .u, List.replicate w.lines .u⟩

/-- The block right after its creation with bus width `w` (R45, R220). `cfg_*` are unspecified by R45 and named 0 here
(DESIGN CHOICE, log 4). -/
def State.create (w : BusWidth) : State where
  width := w
  phase := .uninit
  cfgN := false
  cfgId := false
  cfgS := false
  seq := []
  upc := 0
  curOp := .none
  wrLen := 0#12
  out := OutLines.undriven w
  respLog := []
  refused := false
  trace := []
  inbox := []
  answers := []
  draws := 0

/-- The machine right after reset (R220): a block created with the width `Config.busWidth` (log 1). -/
def State.reset : State := State.create Config.busWidth

end Sys2Proof.Machine
end

