-- ==== Sys2Proof/Machine/Framer.lean ====
section
/-! DEFINITION. The bus framer and the strobe-and-wait primitives (40_bus_framer.md R120 to R127): lists of micro-operations. -/

namespace Sys2Proof.Machine

/-- `Present(v, k)` from line `D[j]` on: the k lines from `D[j]` up get the bits of `v` from bit j up, in that order. -/
def presentFrom {n : Nat} (v : BitVec n) (j : Nat) : Nat → List MicroOp
  | 0 => []
  | k + 1 => .pinWrite (.d j) (v.getLsbD j) :: presentFrom v (j + 1) k

/-- `Present(v, k)` for a k-bit value (R120): every line is written, `D[0]` first. -/
def present {k : Nat} (v : BitVec k) : List MicroOp := presentFrom v 0 k

/-- `Strobe(d)` (R121). -/
def strobe (d : Duration) : List MicroOp := [.pinWrite .e true, .wait .pulse, .pinWrite .e false, .wait d]

/-- `SendNibble(rs, x, d)` (R122), HALF only. -/
def sendNibble (rs : Bool) (x : Nibble) (d : Duration) : List MicroOp :=
  .pinWrite .rs rs :: (present x ++ strobe d)

/-- `SendByte_HALF(rs, v, d)` (R123): high nibble first, RS written once, T_WAIT between the nibbles. -/
def sendByteHalf (rs : Bool) (v : Byte) (d : Duration) : List MicroOp :=
  .pinWrite .rs rs :: (present (highNibble v) ++ strobe .wait ++ present (lowNibble v) ++ strobe d)

/-- `SendByte_FULL(rs, v, d)` (R124). -/
def sendByteFull (rs : Bool) (v : Byte) (d : Duration) : List MicroOp :=
  .pinWrite .rs rs :: (present v ++ strobe d)

/-- `SendByte(rs, v, d)` (R125): the parameter BUS_WIDTH chooses. -/
def sendByte (w : BusWidth) (rs : Bool) (v : Byte) (d : Duration) : List MicroOp :=
  match w with
  | .half => sendByteHalf rs v d
  | .full => sendByteFull rs v d

end Sys2Proof.Machine
end

