-- ==== Sys2Proof/Machine/Flags.lean ====
section
/-! DEFINITION. The block has no flags (10_state.md R39). Its status is the phase and the responses: the conditions the
rules test on the phase (R31, R140, R160, R166), and the word form of a response (30_encoding.md R90). -/

namespace Sys2Proof.Machine

/-- An operation is in progress: `st.phase` is INIT_SEQ or OP_SEQ (R31, R35). -/
def State.busy (s : State) : Bool :=
  match s.phase with
  | .initSeq => true
  | .opSeq => true
  | .uninit => false
  | .ready => false

/-- The micro-operation `st.seq[st.upc]`, if there is one (R34). -/
def State.nextOp (s : State) : Option MicroOp := s.seq[s.upc]?

/-- The block is suspended in `st.seq[st.upc]`, which is a Wait (R166, R205; log 13). -/
def State.suspended (s : State) : Bool :=
  match s.nextOp with
  | some (.wait _) => s.busy
  | _ => false

/-- INIT is admitted in UNINIT and READY (R140). -/
def State.admitsInit (s : State) : Bool :=
  match s.phase with
  | .uninit => true
  | .ready => true
  | .initSeq => false
  | .opSeq => false

/-- SET_DISPLAY_CONTROL, SEEK and WRITE are admitted in READY only (R160). -/
def State.admitsCommand (s : State) : Bool :=
  match s.phase with
  | .ready => true
  | .uninit => false
  | .initSeq => false
  | .opSeq => false

/-- The phase after an operation that fails or is aborted: UNINIT for INIT, READY for any other (R166, R194, R195). -/
def CurOp.phaseAfterStop : CurOp → Phase
  | .init => .uninit
  | .setDisplayControl => .ready
  | .seek => .ready
  | .write => .ready
  | .none => .ready

/-- The count of an OK response: `st.wr_len` for WRITE, 0 otherwise (R90, R160). -/
def State.okCount (s : State) : Count :=
  match s.curOp with
  | .write => s.wrLen
  | .init => 0#12
  | .setDisplayControl => 0#12
  | .seek => 0#12
  | .none => 0#12

/-- A response as a word (R90): `0000 cccc cccc cccc`, or `1000 0000 0000 0000` with the error value beside it. -/
def Response.word : Response → Word
  | .ok count => 0b0000#4 ++ count
  | .err _ => 0b1000#4 ++ 0#12

/-- The error value passed beside an ERR word (R90). -/
def Response.errorValue : Response → Option PinErr
  | .ok _ => none
  | .err e => some e

end Sys2Proof.Machine
end

