-- ==== Sys2Proof/Machine/Ops.lean ====
section
/-! DEFINITION. The named operations over the state: lines, trace, pin answers, responses, admission, progress and completion
of the micro-sequence (00_scope.md R13; 10_state.md R34 to R38), and the entry of the one exception (60_exceptions.md R194). -/

namespace Sys2Proof.Machine

/-! ## Lines (R36) -/

/-- The level a PinWrite of `l` puts on a line. -/
def Level.ofBool : Bool → Level
  | true => .one
  | false => .zero

/-- One line gets a level; the others keep theirs. -/
def OutLines.set (o : OutLines) (p : Line) (l : Level) : OutLines :=
  match p with
  | .e => { o with e := l }
  | .rs => { o with rs := l }
  | .d i => { o with d := o.d.set i l }

/-- The level of a line; a data line the block does not have has none, and reads U. -/
def OutLines.get (o : OutLines) (p : Line) : Level :=
  match p with
  | .e => o.e
  | .rs => o.rs
  | .d i => o.d.getD i .u

def State.setLine (s : State) (p : Line) (l : Level) : State := { s with out := s.out.set p l }

/-- Does the bus of width `w` have the line? `D[i]` exists for i below W (R36, R200). -/
def Line.onBus (w : BusWidth) : Line → Bool
  | .e => true
  | .rs => true
  | .d i => decide (i < w.lines)

/-- Does the bus of width `w` have the lines the micro-operation writes? -/
def MicroOp.fits (w : BusWidth) : MicroOp → Bool
  | .pinWrite p _ => p.onBus w
  | .wait _ => true

/-! ## Observation, pin set, responses -/

/-- The trace gets the micro-operation and its outcome (R10). -/
def State.record (s : State) (op : MicroOp) (a : PinAnswer) : State := { s with trace := s.trace ++ [⟨op, a⟩] }

/-- The pin set's next answer: the next one listed, or else the free value `Config.pinAnswer` (R191, R203; log 3). -/
def State.pinAnswer (s : State) : PinAnswer :=
  match s.answers with
  | a :: _ => a
  | [] => Config.pinAnswer s.draws

/-- The pin set has given that answer. -/
def State.afterAnswer (s : State) : State :=
  match s.answers with
  | _ :: rest => { s with answers := rest }
  | [] => { s with draws := s.draws + 1 }

/-- `respond(r)`: append to the response log (R12, R37). -/
def State.respond (s : State) (r : Response) : State := { s with respLog := s.respLog ++ [r] }

/-- A request is not admitted: `st.refused <- true`, and nothing else changes (R38, R193). -/
def State.markRefused (s : State) : State := { s with refused := true }

/-! ## Admission, progress, completion -/

/-- No operation is in progress any more: `st.cur_op <- NONE ; st.seq <- [] ; st.upc <- 0 ; st.wr_len <- 0` and a phase. -/
def State.endOp (s : State) (ph : Phase) : State :=
  { s with phase := ph, curOp := .none, seq := [], upc := 0, wrLen := 0#12 }

/-- Completion (R34, R148, R160): READY, and the response OK with the operation's count. -/
def State.complete (s : State) : State := (s.endOp .ready).respond (.ok s.okCount)

/-- An operation whose micro-sequence has been performed to its end completes, in the same step (R34, R148; log 11). -/
def State.completeAtEnd (s : State) : State := if s.upc = s.seq.length then s.complete else s

/-- Admission of an operation (R140, R160). An empty expansion completes at once (R164). -/
def State.startOp (s : State) (op : CurOp) (ph : Phase) (ops : List MicroOp) : State :=
  { s with curOp := op, phase := ph, seq := ops, upc := 0 : State }.completeAtEnd

/-- The micro-operation at `st.upc` completed ok: the next index, or completion (R13, R34). -/
def State.advance (s : State) : State := { s with upc := s.upc + 1 : State }.completeAtEnd

/-! ## The exception (R190 to R195) -/

/-- `raise PeripheralError(e)` on line `p` (R194): the failed line goes to U, the operation ends with nothing undone and
nothing after the failed micro-operation performed, the phase is R195's, and the response is ERR(e). No state is saved, and
there is no handler and no return (R197). -/
def State.raisePeripheralError (s : State) (p : Line) (e : PinErr) : State :=
  ((s.setLine p .u).endOp s.curOp.phaseAfterStop).respond (.err e)

/-! ## One micro-operation (R13) -/

/-- `PinWrite(p, l)` (R12, R36): the pin set answers; on ok the line has the level, on `err e` the exception is raised. -/
def State.performPinWrite (s : State) (p : Line) (l : Bool) : State :=
  match s.pinAnswer with
  | .ok => ((s.afterAnswer.record (.pinWrite p l) .ok).setLine p (.ofBool l)).advance
  | .err e => (s.afterAnswer.record (.pinWrite p l) (.err e)).raisePeripheralError p e

/-- `Wait(t)` (R12, R192, R202): the timer ends it; it never fails. -/
def State.performWait (s : State) (t : Duration) : State := (s.record (.wait t) .ok).advance

/-- The block performs the micro-operation at `st.upc`; past the end of `st.seq` the operation completes (R13, R34). -/
def State.microStep (s : State) : State :=
  match s.nextOp with
  | some (.pinWrite p l) => s.performPinWrite p l
  | some (.wait t) => s.performWait t
  | none => s.complete

/-- At most `n` micro-operations, ending early when the operation ends. -/
def State.microSteps : Nat → State → State
  | 0, s => s
  | n + 1, s => if s.busy then microSteps n s.microStep else s

end Sys2Proof.Machine
end

