-- ==== Sys2Proof/Machine/Commands.lean ====
section
/-! DEFINITION. The command and data transmitter: SET_DISPLAY_CONTROL, SEEK, WRITE, ABORT (42_commands.md R160 to R167). -/

namespace Sys2Proof.Machine

/-- The expansion of SET_DISPLAY_CONTROL (R161). -/
def displayControlSeq (w : BusWidth) (d c b : Bool) : List MicroOp := sendByte w false (displayControl d c b) .wait

/-- The expansion of SEEK (R162). -/
def seekSeq (w : BusWidth) (a : Address) : List MicroOp := sendByte w false (setDdramAddress a) .wait

/-- The expansion of WRITE (R163): each byte as data, in order. -/
def writeSeq (w : BusWidth) : List Byte → List MicroOp
  | [] => []
  | v :: rest => sendByte w true v .wait ++ writeSeq w rest

/-- The shared admission of R160: in READY the operation starts, else the request is refused. -/
def State.command (s : State) (op : CurOp) (len : Count) (ops : List MicroOp) : State :=
  if s.admitsCommand then { s with wrLen := len : State }.startOp op .opSeq ops else s.markRefused

/-- SET_DISPLAY_CONTROL (R161). -/
def execSetDisplayControl (d c b : Bool) (s : State) : Host.Outcome State Fault Refusal :=
  .next (s.command .setDisplayControl s.wrLen (displayControlSeq s.width d c b))

/-- SEEK (R162). -/
def execSeek (a : Address) (s : State) : Host.Outcome State Fault Refusal :=
  .next (s.command .seek s.wrLen (seekSeq s.width a))

/-- WRITE (R163, R164): on admission `st.wr_len <- LEN`. A term that no request word encodes is refused (S14; log 19). -/
def execWrite (bytes : List Byte) (s : State) : Host.Outcome State Fault Refusal :=
  if bytes.length ≤ maxWriteLen then
    .next (s.command .write (BitVec.ofNat 12 bytes.length) (writeSeq s.width bytes))
  else .refused .payloadTooLong

/-- ABORT (R166): while the block is suspended in a Wait the operation ends, with no response and the lines as they are;
at any other moment it has no effect and is no refusal. -/
def execAbort (s : State) : Host.Outcome State Fault Refusal :=
  if s.suspended then .next (s.endOp s.curOp.phaseAfterStop) else .next s

end Sys2Proof.Machine
end

