-- ==== Sys2Proof/Machine/Init.lean ====
section
/-! DEFINITION. The initialization sequencer: INIT (41_init_sequencer.md R140 to R148). -/

namespace Sys2Proof.Machine

/-- `PowerOnWait` (R142). -/
def powerOnWait : List MicroOp := [.wait .powerOn]

/-- One wake-up transfer (R98, R143). -/
def wakeUp (w : BusWidth) (d : Duration) : List MicroOp :=
  match w with
  | .half => sendNibble false wakeNibble d
  | .full => sendByteFull false (functionSet true false false) d

/-- `FunctionSetRetry3` (R143). -/
def functionSetRetry3 (w : BusWidth) : List MicroOp := wakeUp w .wake1 ++ wakeUp w .wake2 ++ wakeUp w .wake3

/-- `FunctionSetFinal(n)` (R144): on HALF the switch nibble, then the byte. -/
def functionSetFinal (w : BusWidth) (n : Bool) : List MicroOp :=
  match w with
  | .half => sendNibble false switchNibble .wait ++ sendByteHalf false (functionSet false n false) .wait
  | .full => sendByteFull false (functionSet true n false) .wait

/-- `DisplayOff` (R145). -/
def displayOff (w : BusWidth) : List MicroOp := sendByte w false (displayControl false false false) .wait

/-- `ClearDisplay` (R146). -/
def clearDisplayStep (w : BusWidth) : List MicroOp := sendByte w false clearDisplay .clear

/-- `EntryModeSet(id, s)` (R147). -/
def entryModeStep (w : BusWidth) (id s : Bool) : List MicroOp := sendByte w false (entryModeSet id s) .wait

/-- `InitSeq(n, id, s)` (R141): the six steps in order. -/
def initSeq (w : BusWidth) (n id s : Bool) : List MicroOp :=
  powerOnWait ++ functionSetRetry3 w ++ functionSetFinal w n ++ displayOff w ++ clearDisplayStep w ++ entryModeStep w id s

/-- INIT (R140): in UNINIT and READY the configuration is latched and the sequence starts; else the request is refused. -/
def execInit (n id sh : Bool) (s : State) : Host.Outcome State Fault Refusal :=
  if s.admitsInit then
    .next ({ s with cfgN := n, cfgId := id, cfgS := sh : State }.startOp .init .initSeq (initSeq s.width n id sh))
  else .next s.markRefused

end Sys2Proof.Machine
end

