-- ==== Sys2Proof/Machine/Transfers.lean ====
section
/-! DEFINITION. The controller transfers (30_encoding.md R91 to R98): the block sends one whole transmission of its sequence. -/

namespace Sys2Proof.Machine

/-- The transmission `ops` is what the block sends next: an operation is in progress and `ops` stands in `st.seq` at
`st.upc` (R13, R70). -/
def State.isDue (s : State) (ops : List MicroOp) : Bool := s.busy && ops.isPrefixOf (s.seq.drop s.upc)

/-- The block sends one transmission whole, micro-operation by micro-operation (R13, R91). `forms` are the transmission's
micro-operations, one form for each wait that can follow it; the block sends the form that stands next in `st.seq`. It
sends nothing that does not stand there (R70, R129; log 8). -/
def State.transmit (s : State) (forms : List (List MicroOp)) : Host.Outcome State Fault Refusal :=
  match forms.find? s.isDue with
  | some ops => .next (s.microSteps ops.length)
  | none => .refused .transferNotDue

/-! ## The transmission of each row, with the wait its emitter puts after it -/

/-- BUS_CLEAR_DISPLAY: `0 : 0x01`, then T_CLEAR (R94, R146). -/
def clearDisplayForms (w : BusWidth) : List (List MicroOp) := [sendByte w false clearDisplay .clear]

/-- BUS_ENTRY_MODE_SET: `0 : EM(id, s)`, then T_WAIT (R95, R147). -/
def entryModeForms (w : BusWidth) (id s : Bool) : List (List MicroOp) := [sendByte w false (entryModeSet id s) .wait]

/-- BUS_DISPLAY_CONTROL: `0 : DC(d, c, b)`, then T_WAIT (R93, R145, R161). -/
def displayControlForms (w : BusWidth) (d c b : Bool) : List (List MicroOp) :=
  [sendByte w false (displayControl d c b) .wait]

/-- The waits that can follow a function-set byte: on FULL the value 0x30 is also the wake-up byte (R98, R143), else it is
the final function set (R144). -/
def functionSetWaits (w : BusWidth) (dl n : Bool) : List Duration :=
  match w, dl, n with
  | .full, true, false => [.wake1, .wake2, .wake3, .wait]
  | _, _, _ => [.wait]

/-- BUS_FUNCTION_SET: `0 : FS(dl, n, 0)` (R92, R143, R144). -/
def functionSetForms (w : BusWidth) (dl n : Bool) : List (List MicroOp) :=
  (functionSetWaits w dl n).map (sendByte w false (functionSet dl n false))

/-- BUS_SET_DDRAM_ADDRESS: `0 : SDA(a)`, then T_WAIT (R96, R162). -/
def setDdramAddressForms (w : BusWidth) (a : Address) : List (List MicroOp) :=
  [sendByte w false (setDdramAddress a) .wait]

/-- BUS_WRITE_DATA: `1 : v`, then T_WAIT (R97, R163). -/
def writeDataForms (w : BusWidth) (v : Byte) : List (List MicroOp) := [sendByte w true v .wait]

/-- BUS_WAKE_NIBBLE: the lone nibble `0 : 0x3`, then T_WAKE1, T_WAKE2 or T_WAKE3; never on FULL (R98, R122, R143). -/
def wakeNibbleForms : BusWidth → List (List MicroOp)
  | .half => [.wake1, .wake2, .wake3].map (sendNibble false wakeNibble)
  | .full => []

/-- BUS_SWITCH_NIBBLE: the lone nibble `0 : 0x2`, then T_WAIT; never on FULL (R98, R122, R144). -/
def switchNibbleForms : BusWidth → List (List MicroOp)
  | .half => [sendNibble false switchNibble .wait]
  | .full => []

/-! ## The meanings -/

/-- BUS_CLEAR_DISPLAY (R94, R146). -/
def execBusClearDisplay (s : State) : Host.Outcome State Fault Refusal := s.transmit (clearDisplayForms s.width)

/-- BUS_ENTRY_MODE_SET (R95, R147). -/
def execBusEntryModeSet (id sh : Bool) (s : State) : Host.Outcome State Fault Refusal :=
  s.transmit (entryModeForms s.width id sh)

/-- BUS_DISPLAY_CONTROL (R93, R145, R161). -/
def execBusDisplayControl (d c b : Bool) (s : State) : Host.Outcome State Fault Refusal :=
  s.transmit (displayControlForms s.width d c b)

/-- BUS_FUNCTION_SET (R92, R143, R144). -/
def execBusFunctionSet (dl n : Bool) (s : State) : Host.Outcome State Fault Refusal :=
  s.transmit (functionSetForms s.width dl n)

/-- BUS_SET_DDRAM_ADDRESS (R96, R162). -/
def execBusSetDdramAddress (a : Address) (s : State) : Host.Outcome State Fault Refusal :=
  s.transmit (setDdramAddressForms s.width a)

/-- BUS_WRITE_DATA (R97, R163). -/
def execBusWriteData (v : Byte) (s : State) : Host.Outcome State Fault Refusal := s.transmit (writeDataForms s.width v)

/-- BUS_WAKE_NIBBLE (R98, R143). -/
def execBusWakeNibble (s : State) : Host.Outcome State Fault Refusal := s.transmit (wakeNibbleForms s.width)

/-- BUS_SWITCH_NIBBLE (R98, R144). -/
def execBusSwitchNibble (s : State) : Host.Outcome State Fault Refusal := s.transmit (switchNibbleForms s.width)

/-! ## Placing a transmission where it is due -/

/-- A transmission's operation: the first of the transmission's forms, the operation that emits it and its phase. -/
def emitterOf (w : BusWidth) : Instr → Option (List (List MicroOp) × CurOp × Phase)
  | .busClearDisplay => some (clearDisplayForms w, .init, .initSeq)
  | .busEntryModeSet id s => some (entryModeForms w id s, .init, .initSeq)
  | .busDisplayControl d c b => some (displayControlForms w d c b, .setDisplayControl, .opSeq)
  | .busFunctionSet dl n => some (functionSetForms w dl n, .init, .initSeq)
  | .busSetDdramAddress a => some (setDdramAddressForms w a, .seek, .opSeq)
  | .busWriteData v => some (writeDataForms w v, .write, .opSeq)
  | .busWakeNibble => some (wakeNibbleForms w, .init, .initSeq)
  | .busSwitchNibble => some (switchNibbleForms w, .init, .initSeq)
  | .init _ _ _ => none
  | .setDisplayControl _ _ _ => none
  | .seek _ => none
  | .write _ => none
  | .abort => none

/-- The block inside an operation of which this one transmission is left; a request needs no such place (log 10). -/
def State.placeTransfer (s : State) (i : Instr) : State :=
  match emitterOf s.width i with
  | some (ops :: _, op, ph) =>
    { s with phase := ph, curOp := op, seq := ops, upc := 0, wrLen := if op = .write then 1#12 else 0#12 }
  | _ => s

/-- An arrival that is due at once (log 5). -/
def State.placePacket (s : State) (p : Packet) : State := { s with inbox := ⟨.afterTurns 0, p⟩ :: s.inbox }

end Sys2Proof.Machine
end

