-- ==== Sys2Proof/Machine/Dispatch.lean ====
section
/-! DEFINITION. One arm per instruction. -/

namespace Sys2Proof.Machine

def exec (i : Instr) (s : State) : Host.Outcome State Fault Refusal :=
  match i with
  -- host requests (30_encoding.md R82 to R86)
  | .init n id sh => Sys2Proof.Machine.execInit n id sh s
  | .setDisplayControl d c b => Sys2Proof.Machine.execSetDisplayControl d c b s
  | .seek a => Sys2Proof.Machine.execSeek a s
  | .write bytes => Sys2Proof.Machine.execWrite bytes s
  | .abort => Sys2Proof.Machine.execAbort s
  -- controller transfers (30_encoding.md R92 to R98)
  | .busClearDisplay => Sys2Proof.Machine.execBusClearDisplay s
  | .busEntryModeSet id sh => Sys2Proof.Machine.execBusEntryModeSet id sh s
  | .busDisplayControl d c b => Sys2Proof.Machine.execBusDisplayControl d c b s
  | .busFunctionSet dl n => Sys2Proof.Machine.execBusFunctionSet dl n s
  | .busSetDdramAddress a => Sys2Proof.Machine.execBusSetDdramAddress a s
  | .busWriteData v => Sys2Proof.Machine.execBusWriteData v s
  | .busWakeNibble => Sys2Proof.Machine.execBusWakeNibble s
  | .busSwitchNibble => Sys2Proof.Machine.execBusSwitchNibble s

end Sys2Proof.Machine
end

