-- ==== Sys2Proof/Machine/Schedule.lean ====
section
/-! DEFINITION. Whose turn it is (00_scope.md R9, R13; log 5): the host's, when its next request is due, and the block's otherwise. -/

namespace Sys2Proof.Machine

/-- The host issues its next request now. -/
def Arrival.due (a : Arrival) (busy : Bool) : Bool :=
  match a.pace with
  | .whenIdle => !busy
  | .afterTurns 0 => true
  | .afterTurns (_ + 1) => false

/-- One block turn nearer. -/
def Arrival.tick (a : Arrival) : Arrival :=
  match a.pace with
  | .afterTurns (n + 1) => { a with pace := .afterTurns n }
  | .afterTurns 0 => a
  | .whenIdle => a

/-- The packet that is due, and the state with it taken from the inbox: a request is consumed once (R73). -/
def State.takeDue (s : State) : Option (Packet × State) :=
  match s.inbox with
  | a :: rest => if a.due s.busy then some (a.packet, { s with inbox := rest }) else none
  | [] => none

/-- The next arrival is one block turn nearer. -/
def State.tickInbox (s : State) : State :=
  match s.inbox with
  | a :: rest => { s with inbox := a.tick :: rest }
  | [] => s

/-- The block's turn (R13, R205, R222): the next micro-operation of the operation in progress; with none, it waits for a
request and nothing changes. A micro-operation on a line the block does not have is a fault (R36; log 15). -/
def State.blockTurn (s : State) : Host.Outcome State Fault Refusal :=
  if s.busy then
    if s.nextOp.all (·.fits s.width) then .next s.microStep else .fault .lineNotOnBus
  else .next s

/-- A packet that is no instruction. A request is not admitted (R87, R88; log 6); a bus value that is no row is never sent (R99). -/
def State.rejectPacket (s : State) (p : Packet) : Host.Outcome State Fault Refusal :=
  match p with
  | .request _ _ => .next s.markRefused
  | .busByte _ => .refused .noSuchTransfer
  | .busNibble _ => .refused .noSuchTransfer

end Sys2Proof.Machine
end

