-- ==== Sys2Proof/Machine/Step.lean ====
section
/-! DEFINITION. One step: the host's due request, or else the block's turn (00_scope.md R9, R13). -/

namespace Sys2Proof.Machine

/-- One step. A run in which a request was refused has no meaning (10_state.md R38; log 7). -/
def step (s : State) : Host.Outcome State Fault Refusal :=
  if s.refused then .refused .runWithoutMeaning
  else
    match s.takeDue with
    | some (p, t) =>
      match decode p with
      | .ok i => exec i t
      | .error _ => t.rejectPacket p
    | none => s.tickInbox.blockTurn

/-- `s` with the table row's bits delivered at once, and, for a controller transfer, the block inside an operation whose
next transmission it is (log 5, log 10). -/
def State.withFetchWord (s : State) (nbits w : Nat) : State :=
  match tablePacket nbits w with
  | some p =>
    match decode p with
    | .ok i => (s.placeTransfer i).placePacket p
    | .error _ => s.placePacket p
  | none => s

end Sys2Proof.Machine
end

