-- ==== Sys2Proof/Machine/Assembler.lean ====
section
/-! DEFINITION. The assembly notation of 30_encoding.md R101 and its pseudo-instructions of R102: one line of characters to requests. -/

namespace Sys2Proof.Machine

/-- Why a line does not assemble. -/
inductive AsmError where
  /-- Characters that form no line of R101: a string left open, operands not set apart by commas. -/
  | badLine
  /-- No mnemonic of R101 or R102. -/
  | unknownMnemonic
  /-- An operand that is none of the mnemonic's, or too many or too few of them. -/
  | badOperand
  /-- An operand out of range, a WRITE longer than 4095 bytes included (R101). -/
  | outOfRange
deriving DecidableEq, Repr

/-- A token of a line. -/
inductive Token where
  | word (cs : List Char)
  | comma
  | text (cs : List Char)
deriving DecidableEq, Repr

/-- The word read so far, kept in reverse. -/
def flushWord (cur : List Char) : List Token := if cur.isEmpty then [] else [.word cur.reverse]

/-- The tokens of a line (R101): `;` starts a comment; a string stands between double quotes. R101 does not say which wins
for a `;` inside a string: here it is a character of the string and starts no comment (DESIGN CHOICE, log 18). The second
argument is the word being read and the third the string being read, both in reverse. -/
def lex : List Char → List Char → Option (List Char) → Except AsmError (List Token)
  | [], cur, none => .ok (flushWord cur)
  | [], _, some _ => .error .badLine
  | c :: rest, cur, some acc =>
    if c = '"' then (lex rest [] none).map (.text acc.reverse :: ·) else lex rest cur (some (c :: acc))
  | c :: rest, cur, none =>
    if c = ';' then .ok (flushWord cur)
    else if c = '"' then (lex rest [] (some [])).map (flushWord cur ++ ·)
    else if c = ',' then (lex rest [] none).map (flushWord cur ++ .comma :: ·)
    else if c = ' ' ∨ c = '\t' then (lex rest [] none).map (flushWord cur ++ ·)
    else lex rest (c :: cur) none

/-- Operands stand apart by single commas. -/
def splitOperands : List Token → Except AsmError (List Token)
  | [] => .ok []
  | [.comma] => .error .badLine
  | [t] => .ok [t]
  | .comma :: _ => .error .badLine
  | _ :: [.comma] => .error .badLine
  | t :: .comma :: rest => (splitOperands rest).map (t :: ·)
  | _ => .error .badLine

/-- A digit's value. -/
def digit (c : Char) : Option Nat :=
  if '0' ≤ c ∧ c ≤ '9' then some (c.toNat - '0'.toNat)
  else if 'a' ≤ c ∧ c ≤ 'f' then some (c.toNat - 'a'.toNat + 10)
  else if 'A' ≤ c ∧ c ≤ 'F' then some (c.toNat - 'A'.toNat + 10)
  else none

/-- Digits in a base, most significant first. -/
def digitsValue (base : Nat) (acc : Nat) : List Char → Option Nat
  | [] => some acc
  | c :: rest =>
    match digit c with
    | some k => if k < base then digitsValue base (acc * base + k) rest else none
    | none => none

/-- A number: decimal, or hexadecimal with `0x` (R101). -/
def number : List Char → Option Nat
  | [] => none
  | '0' :: 'x' :: c :: rest => digitsValue 16 0 (c :: rest)
  | cs => digitsValue 10 0 cs

/-- A keyword of a pair: the first gives 1, the second, its opposite, gives 0 (R101). -/
def keyword (one zero : String) : Token → Except AsmError Bool
  | .word cs => if cs = one.toList then .ok true else if cs = zero.toList then .ok false else .error .badOperand
  | .comma => .error .badOperand
  | .text _ => .error .badOperand

/-- A 7-bit address, 0 .. 127 (R101). -/
def addressOperand : Token → Except AsmError Address
  | .word cs =>
    match number cs with
    | some n => if n < 128 then .ok (BitVec.ofNat 7 n) else .error .outOfRange
    | none => .error .badOperand
  | .comma => .error .badOperand
  | .text _ => .error .badOperand

/-- The bytes of a string: ASCII, one for each character, no terminator (R101). -/
def textBytes : List Char → Except AsmError (List Byte)
  | [] => .ok []
  | c :: rest =>
    if c.toNat < 128 then (textBytes rest).map (BitVec.ofNat 8 c.toNat :: ·) else .error .outOfRange

/-- The bytes of one item: a byte 0 .. 255 or a string (R101). -/
def itemBytes : Token → Except AsmError (List Byte)
  | .word cs =>
    match number cs with
    | some n => if n < 256 then .ok [BitVec.ofNat 8 n] else .error .outOfRange
    | none => .error .badOperand
  | .text cs => textBytes cs
  | .comma => .error .badOperand

/-- The bytes of the items of a WRITE, in order. -/
def itemsBytes : List Token → Except AsmError (List Byte)
  | [] => .ok []
  | t :: rest => do
    let bs ← itemBytes t
    let more ← itemsBytes rest
    return bs ++ more

/-- WRITE with its items (R101): at most 4095 bytes. -/
def writeOf (items : List Token) : Except AsmError Instr := do
  let bs ← itemsBytes items
  if bs.length ≤ maxWriteLen then return .write bs else throw .outOfRange

/-- INIT (R101). -/
def asmInit (lines dir shift : Token) : Except AsmError Instr := do
  let two ← keyword "2LINE" "1LINE" lines
  let inc ← keyword "INC" "DEC" dir
  let sh ← keyword "SHIFT" "NOSHIFT" shift
  return initOf (if two then .twoLines else .oneLine) ⟨inc, sh⟩

/-- DISPCTL, which assembles to SET_DISPLAY_CONTROL (R101). -/
def asmDispctl (disp cursor blink : Token) : Except AsmError Instr := do
  let d ← keyword "ON" "OFF" disp
  let c ← keyword "CURSOR" "NOCURSOR" cursor
  let b ← keyword "BLINK" "NOBLINK" blink
  return displayControlOf ⟨d, c, b⟩

/-- The requests of a mnemonic and its operands (R101, R102). -/
def asmMnemonic (m : List Char) (ops : List Token) : Except AsmError (List Instr) :=
  if m = "INIT".toList then
    (match ops with
     | [lines, dir, shift] => (asmInit lines dir shift).map ([·])
     | _ => .error .badOperand)
  else if m = "DISPCTL".toList then
    (match ops with
     | [disp, cursor, blink] => (asmDispctl disp cursor blink).map ([·])
     | _ => .error .badOperand)
  else if m = "SEEK".toList then
    (match ops with
     | [a] => (addressOperand a).map ([.seek ·])
     | _ => .error .badOperand)
  else if m = "WRITE".toList then (writeOf ops).map ([·])
  else if m = "ABORT".toList then (if ops.isEmpty then .ok [.abort] else .error .badOperand)
  else if m = "PRINTAT".toList then
    (match ops with
     | a :: item :: items => do
       let addr ← addressOperand a
       let w ← writeOf (item :: items)
       return [.seek addr, w]
     | _ => .error .badOperand)
  else if m = "DISPON".toList then
    (if ops.isEmpty then .ok [displayControlOf { d := true }] else .error .badOperand)
  else if m = "DISPOFF".toList then (if ops.isEmpty then .ok [displayControlOf {}] else .error .badOperand)
  else .error .unknownMnemonic

/-- The requests of one line; an empty or comment line has none. -/
def assembleLine (line : List Char) : Except AsmError (List Instr) := do
  let tokens ← lex line [] none
  match tokens with
  | [] => return []
  | .word m :: rest => do
    let ops ← splitOperands rest
    asmMnemonic m ops
  | _ => throw .badLine

/-- The requests of a program, one line after the other. -/
def assemble : List (List Char) → Except AsmError (List Instr)
  | [] => .ok []
  | line :: rest => do
    let is ← assembleLine line
    let more ← assemble rest
    return is ++ more

end Sys2Proof.Machine
end

