-- ==== Sys2Proof/Machine/Timing.lean ====
section
/-! DEFINITION. The timing parameters' lower bounds, the platform's duties and the sums of waits (70_reset_and_hazards.md R224,
R225, R228, R230, R231, R233). The model has no clock: no step reads any of it (R233; log 12). -/

namespace Sys2Proof.Machine

/-- The lower bounds of R225, in nanoseconds, at fosc = 270 kHz; T_WAIT's is that of a data write, the longer of its two. -/
def lowerBoundNs (v : Supply) : Duration → Nat
  | .powerOn =>
    match v with
    | .fiveVolt => 15000000
    | .threeVolt => 40000000
  | .pulse =>
    match v with
    | .fiveVolt => 230
    | .threeVolt => 450
  | .wake1 => 4100000
  | .wake2 => 100000
  | .wake3 => 37000
  | .wait => 41000
  | .clear => 1520000

/-- The bound for a controller whose oscillator runs at `khz`: below 270 kHz "each bound above must then be raised" (R225),
here in proportion and rounded up to a nanosecond (DEDUCED, log 17). -/
def lowerBoundNsAt (v : Supply) (khz : Nat) (d : Duration) : Nat :=
  if khz < 270 then (lowerBoundNs v d * 270 + (khz - 1)) / khz else lowerBoundNs v d

/-- Every duration parameter is at least its bound (R225). -/
def timingMeets (ns : Duration → Nat) (v : Supply) (khz : Nat) : Bool :=
  decide (0 < khz) &&
    [Duration.powerOn, .pulse, .wait, .wake1, .wake2, .wake3, .clear].all fun d => decide (lowerBoundNsAt v khz d ≤ ns d)

/-- The RS setup time that the platform's pin-write latency must give before E rises, in nanoseconds (R230). -/
def rsSetupNs : Supply → Nat
  | .fiveVolt => 40
  | .threeVolt => 60

/-- What the controller's behaviour depends on besides the trace: the arguments that R225 and D11 give the model, and the
platform's duties of R224, R230 and R231 (log 20). -/
structure Platform where
  supply : Supply
  oscillatorKhz : Nat
  durationNs : Duration → Nat
  pinWriteNs : Nat
  supplyInTime : Bool
  soleOwner : Bool

/-- The premise of every claim about the controller (D11, R228): the parameters meet the bounds of R225, and the platform the
duties of R224, R230 and R231. R230 does not say how the pin-write latency gives the setup time: here one pin write alone
takes at least that long, though the writes of the data lines lie between RS and E besides (DESIGN CHOICE, log 21). -/
def Platform.dutiesMet (pf : Platform) : Bool :=
  timingMeets pf.durationNs pf.supply pf.oscillatorKhz && decide (rsSetupNs pf.supply ≤ pf.pinWriteNs) &&
    pf.supplyInTime && pf.soleOwner

/-- This implementation's platform: nothing is known of it (log 12, log 20). -/
def Config.platform : Platform where
  supply := Config.supply
  oscillatorKhz := Config.oscillatorKhz
  durationNs := Config.durationNs
  pinWriteNs := Config.pinWriteNs
  supplyInTime := Config.supplyInTime
  soleOwner := Config.soleOwner

/-- This implementation meets the bounds and duties: an open premise, since its platform is open (log 12, log 20). -/
def Config.timingMet : Bool := Config.platform.dutiesMet

/-- How many Waits of a list name the duration. -/
def waitCount (d : Duration) (ops : List MicroOp) : Nat := ops.countP (· == .wait d)

/-- The sum of the Wait parameters of a list: the lower bound of R233 on how long it takes. -/
def waitSumNs (ns : Duration → Nat) : List MicroOp → Nat
  | [] => 0
  | .wait d :: rest => ns d + waitSumNs ns rest
  | .pinWrite _ _ :: rest => waitSumNs ns rest

/-- How many PinWrites a list has (R127). -/
def pinWriteCount (ops : List MicroOp) : Nat :=
  ops.countP fun op =>
    match op with
    | .pinWrite _ _ => true
    | .wait _ => false

/-- How many strobes a list has: `PinWrite(E, 1)`s (R127). -/
def strobeCount (ops : List MicroOp) : Nat := ops.countP (· == .pinWrite .e true)

end Sys2Proof.Machine
end

