-- ==== Sys2Proof/Machine/Observe.lean ====
section
/-! DEFINITION. What an observer reads off the trace: the line levels (00_scope.md R10, 10_state.md R36), the wiring to the
controller (60_exceptions.md R201), the latched transfers (20_memory.md R74) and the informative view of the controller's
interface (R75, R41, R66, R228, R229; log 16, log 20). No step reads any of it. -/

namespace Sys2Proof.Machine

/-! ## Levels and pins -/

/-- The line levels after one more micro-operation (R36): its level on ok, U on an error. -/
def TraceEntry.drive (o : OutLines) (t : TraceEntry) : OutLines :=
  match t.op, t.outcome with
  | .pinWrite p l, .ok => o.set p (.ofBool l)
  | .pinWrite p _, .err _ => o.set p .u
  | .wait _, _ => o

/-- "The levels of the display controller's lines at any moment follow from the trace" (R10). -/
def linesAfter (w : BusWidth) (trace : List TraceEntry) : OutLines := trace.foldl TraceEntry.drive (.undriven w)

/-- The controller's pins (R201). -/
inductive ControllerPin where
  | e
  | rs
  | rw
  | db (i : Nat)
deriving DecidableEq, Repr

/-- The pin a line drives: `D[i]` is DB`i` on FULL and DB`(i+4)` on HALF (R36, R201). -/
def Line.pin (w : BusWidth) : Line → ControllerPin
  | .e => .e
  | .rs => .rs
  | .d i =>
    match w with
    | .full => .db i
    | .half => .db (i + 4)

/-- The level of a pin: RW is wired to the write level 0 (R201); DB0 to DB3 are not connected on HALF (R36) and read U. -/
def OutLines.pinLevel (w : BusWidth) (o : OutLines) : ControllerPin → Level
  | .e => o.e
  | .rs => o.rs
  | .rw => .zero
  | .db i =>
    match w with
    | .full => o.d.getD i .u
    | .half => if i < 4 then .u else o.d.getD (i - 4) .u

/-! ## Latched transfers (R74) -/

/-- One latched transfer: the levels of RS and of the data lines at a falling edge of E. -/
structure Latch where
  rs : Level
  d : List Level
deriving DecidableEq, Repr

/-- A falling edge of E: `PinWrite(E, 0)` with outcome ok whose previous E level was 1 (R74). -/
def TraceEntry.isEdge (o : OutLines) (t : TraceEntry) : Bool :=
  decide (t.op = .pinWrite .e false) && decide (t.outcome = .ok) && decide (o.e = .one)

/-- A failed `PinWrite(E, 0)` whose previous E level was 1: the edge may or may not have happened (R121). -/
def TraceEntry.mayBeEdge (o : OutLines) (t : TraceEntry) : Bool :=
  decide (t.op = .pinWrite .e false) && decide (t.outcome ≠ .ok) && decide (o.e = .one)

/-- The transfers latched by a trace that starts with the lines at `o`. -/
def latchedFrom (o : OutLines) : List TraceEntry → List Latch
  | [] => []
  | t :: rest => (if t.isEdge o then [⟨o.rs, o.d⟩] else []) ++ latchedFrom (t.drive o) rest

/-- `Latched(trace)` (R74). -/
def latched (w : BusWidth) (trace : List TraceEntry) : List Latch := latchedFrom (.undriven w) trace

/-- Every sampled line has a level: a latch with a line at U latches an unspecified value (R74, S8). -/
def Latch.specified (l : Latch) : Bool := l.rs != .u && l.d.all (· != .u)

/-- The levels that the bits of a value put on the data lines, `D[0]` first (R62, R63). -/
def levelsOf {k : Nat} (v : BitVec k) : List Level := (List.range k).map fun i => .ofBool (v.getLsbD i)

/-- The transfers `rs : v` of a transmission, by bus width (R91). -/
def transfersOf (w : BusWidth) (rs : Bool) (v : Byte) : List Latch :=
  match w with
  | .half => [⟨.ofBool rs, levelsOf (v.extractLsb' 4 4)⟩, ⟨.ofBool rs, levelsOf (v.extractLsb' 0 4)⟩]
  | .full => [⟨.ofBool rs, levelsOf v⟩]

/-- The trace entries of micro-operations that all completed ok. -/
def allOk (ops : List MicroOp) : List TraceEntry := ops.map fun op => ⟨op, .ok⟩

/-! ## The informative view of the controller's interface (R75) -/

/-- The controller's interface mode as far as it is known. -/
inductive IfaceMode where
  | eight
  | four
  | unknown
deriving DecidableEq, Repr

/-- The mode that a completed INIT leaves the controller in (R75, R144). -/
def busIfaceMode : BusWidth → IfaceMode
  | .half => .four
  | .full => .eight

/-- An 8-bit item the controller receives: RS and DB0 .. DB7, DB0 first; `unspecified` stands for whatever a transfer that
the rules leave open makes of it. -/
inductive Item where
  | item (rs : Level) (db : List Level)
  | unspecified
deriving DecidableEq, Repr

/-- The interface as R75 describes it: mode, a high nibble waiting for its low one, how many 0x3 function sets came in a row. -/
structure Iface where
  mode : IfaceMode
  high : Option Latch
  threes : Nat
deriving DecidableEq, Repr

/-- Nothing is known of the interface. -/
def Iface.unknown : Iface := ⟨.unknown, none, 0⟩

/-- The view. While `lost`, an operation has failed or was aborted and no INIT has completed since: the controller may be in
any state (R41, R66, R195, R229; U1, U3), and `iface` is only the interface that the next completed INIT will leave. On a
platform that does not meet the timing bounds it is always lost (R228). -/
structure ControllerView where
  iface : Iface
  lost : Bool
  items : List Item
deriving DecidableEq, Repr

/-- The view at power-on: any controller state until the wake-ups (R75, U4). -/
def ControllerView.powerOn : ControllerView := ⟨.unknown, false, []⟩

/-- The controller's mode: unknown while lost. -/
def ControllerView.mode (v : ControllerView) : IfaceMode := if v.lost then .unknown else v.iface.mode

/-- What moves the view: a micro-operation with its outcome; an ABORT that took effect (R166); an INIT that completed ok
(R148). The last two are not in the trace. -/
inductive ControllerEvent where
  | performed (t : TraceEntry)
  | aborted
  | initDone
deriving DecidableEq, Repr

/-- DB0 .. DB7 at a latch; HALF leaves DB0 to DB3 undriven (R63). -/
def Latch.onPins (w : BusWidth) (l : Latch) : List Level :=
  match w with
  | .half => List.replicate 4 .u ++ l.d
  | .full => l.d

/-- A function set whose DB7 .. DB4 are 0x3 (R75). -/
def Latch.isWake (w : BusWidth) (l : Latch) : Bool :=
  decide (l.rs = .zero) && decide ((l.onPins w).drop 4 = [.one, .one, .zero, .zero])

/-- The mode after an item: a function set (RS = 0, DB7 .. DB5 = 001) sets it by DL = DB4 (R75, R92). -/
def Item.modeAfter (m : IfaceMode) : Item → IfaceMode
  | .unspecified => .unknown
  | .item rs db =>
    if rs = .zero ∧ db.drop 5 = [.one, .zero, .zero] then
      (match db.getD 4 .u with
       | .one => .eight
       | .zero => .four
       | .u => .unknown)
    else m

/-- The item a latch completes, if any, and the nibble kept waiting (R75). -/
def Iface.receive (w : BusWidth) (c : Iface) (l : Latch) : Option Item × Option Latch :=
  match c.mode with
  | .unknown => (some .unspecified, none)
  | .eight => (some (.item l.rs (l.onPins w)), none)
  | .four =>
    match c.high with
    | none => (none, some l)
    | some h =>
      if h.rs = l.rs then (some (.item l.rs ((l.onPins w).drop 4 ++ (h.onPins w).drop 4)), none)
      else (some .unspecified, none)

/-- The interface after a latch, and the item it completed (R75): the third 0x3 in a row puts the controller into 8-bit
mode from any mode and phase; a latch with a line at U leaves nothing known (S8). -/
def Iface.onLatch (w : BusWidth) (c : Iface) (l : Latch) : Iface × Option Item :=
  if l.specified then
    let r := c.receive w l
    let threes := if l.isWake w then c.threes + 1 else 0
    if threes ≥ 3 then (⟨.eight, none, threes⟩, r.1)
    else (⟨(r.1.map (·.modeAfter c.mode)).getD c.mode, r.2, threes⟩, r.1)
  else (.unknown, some .unspecified)

/-- The view after a latch: while lost, what the controller makes of it is unspecified. -/
def ControllerView.onLatch (w : BusWidth) (v : ControllerView) (l : Latch) : ControllerView :=
  let r := v.iface.onLatch w l
  ⟨r.1, v.lost, v.items ++ if v.lost then [.unspecified] else r.2.toList⟩

/-- A failed or aborted operation leaves the controller in any state (U1, U3). -/
def ControllerView.lose (v : ControllerView) : ControllerView := { v with iface := .unknown, lost := true }

/-- The view after a micro-operation at lines `o`: a falling edge latches; any failed pin write loses the controller, and
one that may have been a falling edge may have latched something besides (R121). -/
def ControllerView.onEntry (w : BusWidth) (o : OutLines) (v : ControllerView) (t : TraceEntry) : ControllerView :=
  if t.isEdge o then v.onLatch w ⟨o.rs, o.d⟩
  else
    match t.outcome with
    | .ok => v
    | .err _ => if t.mayBeEdge o then { v.lose with items := v.items ++ [.unspecified] } else v.lose

/-- On a platform that does not meet the timing bounds and its other duties, what the controller does with the trace is
unspecified, whatever came before (R228, S9; log 20). -/
def ControllerView.under (pf : Platform) (v : ControllerView) : ControllerView := if pf.dutiesMet then v else v.lose

/-- The view on a platform after events that start with the lines at `o`. -/
def ControllerView.after (pf : Platform) (w : BusWidth) (o : OutLines) (v : ControllerView) :
    List ControllerEvent → ControllerView
  | [] => v.under pf
  | .performed t :: rest => ((v.under pf).onEntry w o t).after pf w (t.drive o) rest
  | .aborted :: rest => v.lose.after pf w o rest
  | .initDone :: rest => { v with lost := false : ControllerView }.after pf w o rest

/-- How the operation in progress in `s` ended on the way to `t`, as an event: one that left no response was aborted (R37,
R166); an INIT that left OK completed. -/
def endEvents (s t : State) : List ControllerEvent :=
  if s.busy && !t.busy then
    if t.respLog.length = s.respLog.length then [.aborted]
    else
      match s.curOp, t.respLog.getLast? with
      | .init, some (.ok _) => [.initDone]
      | _, _ => []
  else []

/-- The events of one step from `s` to `t`. -/
def stepEvents (s t : State) : List ControllerEvent :=
  (t.trace.drop s.trace.length).map .performed ++ endEvents s t

/-- The view on a platform after a step from `s` to `t`. -/
def ControllerView.afterStep (pf : Platform) (v : ControllerView) (s t : State) : ControllerView :=
  v.after pf s.width s.out (stepEvents s t)

end Sys2Proof.Machine
end

