-- ==== Sys2Proof/Safety.lean ====
section
/-! DEFINITION. What holds of every state of a run: the terms that claims use (10_state.md R31, R34, R35, R36). -/

namespace Sys2Proof.Machine

/-- The state's fields agree with one another, as R31, R34, R35 and R36 say. -/
structure State.Coherent (s : State) : Prop where
  /-- Lines `D[0]` .. `D[W-1]` and no others (R36). -/
  dataLines : s.out.d.length = s.width.lines
  /-- With no operation in progress the sequence is empty (R34). -/
  idleSeq : s.busy = false → s.seq = []
  /-- … and the index is 0 (R34). -/
  idleUpc : s.busy = false → s.upc = 0
  /-- With one in progress the index is inside the sequence (R34). -/
  busyUpc : s.busy = true → s.upc < s.seq.length
  /-- `st.cur_op` is NONE exactly when no operation is in progress (R35). -/
  idleOp : s.curOp = .none ↔ s.busy = false
  /-- INIT_SEQ is the phase of INIT (R31). -/
  initPhase : s.phase = .initSeq ↔ s.curOp = .init
  /-- `st.wr_len` is 0 unless the operation is WRITE (R35). -/
  writeLen : s.curOp ≠ .write → s.wrLen = 0#12
  /-- Every micro-operation writes a line the bus has (R12, R36). -/
  opsFit : ∀ op ∈ s.seq, op.fits s.width = true

/-- The micro-sequence is the expansion of the operation in progress (R34, R140, R161 to R163), with the configuration and
the length it was admitted with. -/
def State.SeqIsExpansion (s : State) : Prop :=
  match s.curOp with
  | .none => s.seq = []
  | .init => s.seq = initSeq s.width s.cfgN s.cfgId s.cfgS
  | .setDisplayControl => ∃ d c b, s.seq = displayControlSeq s.width d c b
  | .seek => ∃ a, s.seq = seekSeq s.width a
  | .write => ∃ bytes, bytes.length ≤ maxWriteLen ∧ s.wrLen = BitVec.ofNat 12 bytes.length ∧ s.seq = writeSeq s.width bytes

/-- The line levels are those the trace determines (R10, R36). -/
def State.LinesFollowTrace (s : State) : Prop := s.out = linesAfter s.width s.trace

/-- The next arrival is the packet `p`, and it is due (log 5): at once, or as soon as no operation is in progress and none is. -/
def State.NextDue (s : State) (p : Packet) (rest : List Arrival) : Prop :=
  ∃ pace, s.inbox = ⟨pace, p⟩ :: rest ∧ (pace = .afterTurns 0 ∨ (pace = .whenIdle ∧ s.busy = false))

/-- A step neither faults nor is refused. -/
def State.Steps (s : State) : Prop := ∃ t, step s = .next t

end Sys2Proof.Machine
end

