-- ==== Sys2Proof/Certificates/Slice0/Obligations.lean ====
section
/-! DEFINITION. The statements about the block, from the numbered rules of spec/. -/

namespace Sys2Proof.Machine

/-- `ops` stands next in the sequence of a coherent state with an operation in progress. -/
def State.DueNext (s : State) (ops : List MicroOp) : Prop :=
  s.Coherent ∧ s.busy = true ∧ ops <+: s.seq.drop s.upc

/-- The pin set's next answers are ok for every PinWrite of `ops`; `rest` are the answers after them. -/
def State.AnswersOk (s : State) (ops : List MicroOp) (rest : List PinAnswer) : Prop :=
  s.answers = List.replicate (pinWriteCount ops) .ok ++ rest

/-- The operation in progress has been performed to its end: READY, and the response OK with LEN for WRITE and 0 otherwise
(R148, R160). -/
def State.completed (s : State) : State :=
  { s with phase := .ready, curOp := .none, seq := [], upc := 0, wrLen := 0#12,
           respLog := s.respLog ++ [.ok (if s.curOp = .write then s.wrLen else 0#12)] }

/-- `ops` have all been performed ok and left the lines at `o`: the trace has them, their answers are used up, `st.upc` is
past them, and an operation they end is completed. Everything else is as before. -/
def State.sent (s : State) (ops : List MicroOp) (rest : List PinAnswer) (o : OutLines) : State :=
  if s.upc + ops.length = s.seq.length then
    ({ s with out := o, trace := s.trace ++ allOk ops, answers := rest } : State).completed
  else { s with out := o, trace := s.trace ++ allOk ops, answers := rest, upc := s.upc + ops.length }

/-- The line levels that a transmission of `v` leaves: E low, RS at its level, the data lines at what was presented last. -/
def linesAfterByte (w : BusWidth) (rs : Bool) (v : Byte) : OutLines :=
  ⟨.zero, .ofBool rs,
    match w with
    | .half => levelsOf (v.extractLsb' 0 4)
    | .full => levelsOf v⟩

/-- The instruction `i` sends the byte `v` with register select `rs`, when that transmission, followed by the wait `d`, is
due and the pin set answers ok: exactly the effect of `sent`. -/
def SendsByte (i : Instr) (rs : Bool) (v : Byte) (d : Duration) : Prop :=
  ∀ (s : State) (rest : List PinAnswer),
    s.DueNext (sendByte s.width rs v d) → s.AnswersOk (sendByte s.width rs v d) rest →
    exec i s = .next (s.sent (sendByte s.width rs v d) rest (linesAfterByte s.width rs v))

/-- The instruction `i` sends the lone nibble `x` with RS = 0, likewise; HALF only. -/
def SendsNibble (i : Instr) (x : Nibble) (d : Duration) : Prop :=
  ∀ (s : State) (rest : List PinAnswer), s.width = .half →
    s.DueNext (sendNibble false x d) → s.AnswersOk (sendNibble false x d) rest →
    exec i s = .next (s.sent (sendNibble false x d) rest ⟨.zero, .zero, levelsOf x⟩)

/-- The host's next arrival is due: an empty inbox has none. -/
def State.HostSilent (s : State) : Prop := s.refused = false ∧ s.inbox = []

/-- How many payload bytes a request word announces (R85, R89). -/
def announcedLength (q : Word) : Nat := if q.extractLsb' 12 4 = 0x4#4 then (q.extractLsb' 0 12).toNat else 0

/-- The payload has the announced length; a byte or nibble value has no payload. -/
def payloadIsAnnounced : Packet → Prop
  | .request q payload => payload.length = announcedLength q
  | .busByte _ => True
  | .busNibble _ => True

/-- The expansion of an admitted request (R140, R161 to R163). -/
def expansion (w : BusWidth) : Instr → List MicroOp
  | .init n id sh => initSeq w n id sh
  | .setDisplayControl d c b => displayControlSeq w d c b
  | .seek a => seekSeq w a
  | .write bytes => writeSeq w bytes
  | _ => []

/-- The micro-operations of a controller transfer with a wait that can follow it; none for a host request. -/
def IsTransmission (w : BusWidth) (ops : List MicroOp) : Prop :=
  ∃ i forms op ph, emitterOf w i = some (forms, op, ph) ∧ ops ∈ forms

end Sys2Proof.Machine

open Sys2Proof Sys2Proof.Machine

/-! ## Encoding -/

/-- Every well-formed instruction decodes from its own encoding (30_encoding.md R82 to R86, R92 to R98). -/
def Obligations.DecodeOfEncode : Prop :=
  ∀ i : Instr, i.wellFormed = true → decode (encode i) = .ok i

/-- A packet has one meaning: what decodes to `i` is the encoding of `i`, and `i` is well-formed. -/
def Obligations.EncodeOfDecode : Prop :=
  ∀ (p : Packet) (i : Instr), decode p = .ok i → encode i = p ∧ i.wellFormed = true

/-- Decoding agrees with the match and mask columns of 30_encoding.md section 3: a packet that matches no row is rejected,
and not for its payload; one that matches a row matches no other, decodes exactly when its payload has the length its word
announces, and then to an instruction of that row; it is rejected for its payload otherwise (a payload of another length is
log 6). -/
def Obligations.DecodeAgreesWithOpcodeMap : Prop :=
  ∀ p : Packet,
    (p.rows = [] → ∃ r, decode p = .error r ∧ r ≠ .payloadLength) ∧
    (p.rows ≠ [] → ∃ row, p.rows = [row] ∧
      (payloadIsAnnounced p ↔ ∃ i, decode p = .ok i) ∧
      (∀ i, decode p = .ok i → i.opcodeRow = row) ∧
      (¬ payloadIsAnnounced p → decode p = .error .payloadLength))

/-- R87: a due request word with a reserved opcode, whatever comes with it, sets `st.refused` and does nothing else (its own
place in the inbox is used up, R73). -/
def Obligations.ReservedOpcodeIsRefused : Prop :=
  ∀ (s : State) (q : Word) (payload : List Byte) (rest : List Arrival),
    (q.extractLsb' 12 4 = 0x0#4 ∨ 0x6#4 ≤ q.extractLsb' 12 4) →
    s.refused = false → s.NextDue (.request q payload) rest →
    step s = .next { s with inbox := rest, refused := true }

/-- R88: so does a due request word of INIT, SET_DISPLAY_CONTROL, SEEK or ABORT with a reserved bit set. -/
def Obligations.ReservedBitsAreRefused : Prop :=
  ∀ (s : State) (q : Word) (payload : List Byte) (rest : List Arrival),
    (q.extractLsb' 12 4 = 0x1#4 ∧ q.extractLsb' 3 9 ≠ 0#9 ∨
     q.extractLsb' 12 4 = 0x2#4 ∧ q.extractLsb' 3 9 ≠ 0#9 ∨
     q.extractLsb' 12 4 = 0x3#4 ∧ q.extractLsb' 7 5 ≠ 0#5 ∨
     q.extractLsb' 12 4 = 0x5#4 ∧ q.extractLsb' 0 12 ≠ 0#12) →
    s.refused = false → s.NextDue (.request q payload) rest →
    step s = .next { s with inbox := rest, refused := true }

/-- Words of 95_test_vectors.md L2-1 and L2-2, one of each family. -/
def Obligations.SpecWordsDecode : Prop :=
  decode (.request 0x1006#16 []) = .ok (.init true true false) ∧
  decode (.request 0x2004#16 []) = .ok (.setDisplayControl true false false) ∧
  decode (.request 0x3028#16 []) = .ok (.seek 40#7) ∧
  decode (.request 0x4002#16 [0x41#8, 0x42#8]) = .ok (.write [0x41#8, 0x42#8]) ∧
  decode (.request 0x5000#16 []) = .ok .abort ∧
  decode (.busByte 0x028#9) = .ok (.busFunctionSet false true) ∧
  decode (.busByte 0x0A8#9) = .ok (.busSetDdramAddress 40#7) ∧
  decode (.busByte 0x141#9) = .ok (.busWriteData 0x41#8) ∧
  decode (.busNibble 0x03#5) = .ok .busWakeNibble

/-- The word form of a response (R90): OK carries its count in the low 12 bits under four zeros, ERR is 0x8000 and the error
value goes beside it. -/
def Obligations.ResponseWords : Prop :=
  (∀ c : Count, (Response.ok c).word.toNat = c.toNat ∧ (Response.ok c).errorValue = none) ∧
  (∀ e : PinErr, (Response.err e).word = 0x8000#16 ∧ (Response.err e).errorValue = some e)

/-- The bytes the sequencer computes by OR (R92 to R97, R100) are the values of the rows of section 3, with RS in front. -/
def Obligations.ControllerBytesAreTheirRows : Prop :=
  (∀ dl n, encode (.busFunctionSet dl n) = .busByte (0#1 ++ functionSet dl n false)) ∧
  (∀ d c b, encode (.busDisplayControl d c b) = .busByte (0#1 ++ displayControl d c b)) ∧
  encode .busClearDisplay = .busByte (0#1 ++ clearDisplay) ∧
  (∀ id sh, encode (.busEntryModeSet id sh) = .busByte (0#1 ++ entryModeSet id sh)) ∧
  (∀ a, encode (.busSetDdramAddress a) = .busByte (0#1 ++ setDdramAddress a)) ∧
  (∀ v, encode (.busWriteData v) = .busByte (1#1 ++ v)) ∧
  encode .busWakeNibble = .busNibble (0#1 ++ wakeNibble) ∧
  encode .busSwitchNibble = .busNibble (0#1 ++ switchNibble)

/-- R152: the function-set bytes of a one-line and a two-line INIT differ in exactly bit 3. -/
def Obligations.LineCountIsBitThree : Prop :=
  ∀ dl : Bool, functionSet dl true false ^^^ functionSet dl false false = 0x08#8

/-! ## Framer -/

/-- R126: the nibble split is exact, and the two nibbles rebuild the byte. -/
def Obligations.NibblesRebuildByte : Prop :=
  ∀ v : Byte, highNibble v ++ lowNibble v = v ∧ (highNibble v).toNat = (v >>> 4 &&& 0xF#8).toNat ∧
    (lowNibble v).toNat = (v &&& 0xF#8).toNat

/-- The worked examples of R120, R122 and R124, and the 17 micro-operations of 95_test_vectors.md L1-1. -/
def Obligations.FramerExamples : Prop :=
  present 0x3#4 = [.pinWrite (.d 0) true, .pinWrite (.d 1) true, .pinWrite (.d 2) false, .pinWrite (.d 3) false] ∧
  sendNibble false 0x3#4 .wake1 =
    [.pinWrite .rs false, .pinWrite (.d 0) true, .pinWrite (.d 1) true, .pinWrite (.d 2) false, .pinWrite (.d 3) false,
     .pinWrite .e true, .wait .pulse, .pinWrite .e false, .wait .wake1] ∧
  sendByte .full true 0x41#8 .wait =
    [.pinWrite .rs true, .pinWrite (.d 0) true, .pinWrite (.d 1) false, .pinWrite (.d 2) false, .pinWrite (.d 3) false,
     .pinWrite (.d 4) false, .pinWrite (.d 5) false, .pinWrite (.d 6) true, .pinWrite (.d 7) false,
     .pinWrite .e true, .wait .pulse, .pinWrite .e false, .wait .wait] ∧
  sendByte .half false 0xA8#8 .wait =
    [.pinWrite .rs false, .pinWrite (.d 0) false, .pinWrite (.d 1) true, .pinWrite (.d 2) false, .pinWrite (.d 3) true,
     .pinWrite .e true, .wait .pulse, .pinWrite .e false, .wait .wait,
     .pinWrite (.d 0) false, .pinWrite (.d 1) false, .pinWrite (.d 2) false, .pinWrite (.d 3) true,
     .pinWrite .e true, .wait .pulse, .pinWrite .e false, .wait .wait]

/-- R127 and R141: the lengths of the primitives and of INIT, with their PinWrites and strobes. -/
def Obligations.PrimitiveLengths : Prop :=
  (∀ rs x d, (sendNibble rs x d).length = 9 ∧ pinWriteCount (sendNibble rs x d) = 7 ∧ strobeCount (sendNibble rs x d) = 1) ∧
  (∀ rs v d, (sendByteHalf rs v d).length = 17 ∧ pinWriteCount (sendByteHalf rs v d) = 13 ∧
    strobeCount (sendByteHalf rs v d) = 2) ∧
  (∀ rs v d, (sendByteFull rs v d).length = 13 ∧ pinWriteCount (sendByteFull rs v d) = 11 ∧
    strobeCount (sendByteFull rs v d) = 1) ∧
  (∀ n id sh, (initSeq .half n id sh).length = 105 ∧ pinWriteCount (initSeq .half n id sh) = 80 ∧
    strobeCount (initSeq .half n id sh) = 12) ∧
  (∀ n id sh, (initSeq .full n id sh).length = 92 ∧ pinWriteCount (initSeq .full n id sh) = 77 ∧
    strobeCount (initSeq .full n id sh) = 7)

/-- L1-1 (R91, R123, R124, and R74's view): from any line levels, E high included, a transmission that completes latches
exactly its transfers: `rs : v[7:4]` then `rs : v[3:0]` on HALF, `rs : v` on FULL. -/
def Obligations.TransmissionLatchesItsTransfers : Prop :=
  ∀ (w : BusWidth) (rs : Bool) (v : Byte) (d : Duration) (o : OutLines), o.d.length = w.lines →
    latchedFrom o (allOk (sendByte w rs v d)) = transfersOf w rs v

/-- L1-5 (R163, and R74's view): a WRITE that completes latches its bytes with RS = 1, in order, and nothing else. -/
def Obligations.WriteLatchesItsPayload : Prop :=
  ∀ (w : BusWidth) (bytes : List Byte) (o : OutLines), o.d.length = w.lines →
    latchedFrom o (allOk (writeSeq w bytes)) = bytes.flatMap (transfersOf w true)

/-- R165: a WRITE cut short inside byte k, after j of that byte's micro-operations, has latched the bytes before k in full,
of byte k the transfers whose strobe had ended, and nothing of the bytes after it. -/
def Obligations.CutWriteLatchesWholeBytesBefore : Prop :=
  (∀ (before after : List Byte) (v : Byte) (j : Nat) (o : OutLines), o.d.length = 4 → j < 17 →
    latchedFrom o (allOk ((writeSeq .half (before ++ v :: after)).take (17 * before.length + j))) =
      before.flatMap (transfersOf .half true) ++
        (transfersOf .half true v).take (if j < 8 then 0 else if j < 16 then 1 else 2)) ∧
  (∀ (before after : List Byte) (v : Byte) (j : Nat) (o : OutLines), o.d.length = 8 → j < 13 →
    latchedFrom o (allOk ((writeSeq .full (before ++ v :: after)).take (13 * before.length + j))) =
      before.flatMap (transfersOf .full true) ++ (transfersOf .full true v).take (if j < 12 then 0 else 1))

/-- R150 and L1-2 (with R74's view): from any line levels, whatever E is (R221), an INIT that completes latches three
wake-ups, on HALF the switch nibble, one final function set, display off, clear and entry mode set, and nothing else. -/
def Obligations.InitLatchesItsTransfers : Prop :=
  ∀ (n id sh : Bool) (o : OutLines),
    (o.d.length = 4 → latchedFrom o (allOk (initSeq .half n id sh)) =
      List.replicate 3 ⟨.zero, levelsOf 0x3#4⟩ ++ [⟨.zero, levelsOf 0x2#4⟩] ++
      transfersOf .half false (if n then 0x28#8 else 0x20#8) ++ transfersOf .half false 0x08#8 ++
      transfersOf .half false 0x01#8 ++ transfersOf .half false (entryModeSet id sh)) ∧
    (o.d.length = 8 → latchedFrom o (allOk (initSeq .full n id sh)) =
      List.replicate 3 ⟨.zero, levelsOf 0x30#8⟩ ++ [⟨.zero, levelsOf (if n then 0x38#8 else 0x30#8)⟩,
      ⟨.zero, levelsOf 0x08#8⟩, ⟨.zero, levelsOf 0x01#8⟩, ⟨.zero, levelsOf (entryModeSet id sh)⟩])

/-- R229 under R75's informative view (log 16), on a platform that meets the timing bounds and its other duties, which are
premises of any claim about the controller (R228, D11; log 20): whatever interface mode and nibble phase the controller was in, and whatever
an earlier failure or ABORT left, a completed INIT leaves it in the bus's mode with no nibble waiting and its state known
again. What it received last, unless an earlier failure or ABORT leaves that open until INIT completes (U1, U3), are the
final function set, display off, clear and entry mode set. -/
def Obligations.InitResynchronizesTheController : Prop :=
  ∀ (pf : Platform) (w : BusWidth) (n id sh : Bool) (v : ControllerView) (o : OutLines),
    pf.dutiesMet = true → o.d.length = w.lines →
    ∃ u, v.after pf w o ((allOk (initSeq w n id sh)).map .performed ++ [.initDone]) = u ∧
      u.lost = false ∧ u.mode = busIfaceMode w ∧ u.iface.high = none ∧
      (v.lost = false → ∃ items, u.items = items ++
        [.item .zero (levelsOf (functionSet (decide (w = .full)) n false)), .item .zero (levelsOf 0x08#8),
         .item .zero (levelsOf 0x01#8), .item .zero (levelsOf (entryModeSet id sh))])

/-- R99, R129: every expansion is a row of table transfers, each with a wait its emitter puts after it, and INIT's begins
with the power-on wait. So no other value is ever sent. -/
def Obligations.ExpansionsAreTableTransfers : Prop :=
  ∀ (w : BusWidth) (i : Instr), ∃ parts : List (List MicroOp),
    (∀ ops ∈ parts, IsTransmission w ops) ∧
    expansion w i = (match i with | .init _ _ _ => [.wait .powerOn] | _ => []) ++ parts.flatten

/-! ## Requests -/

/-- R140: INIT's word, its admission in UNINIT and READY with every field it writes, and its refusal in INIT_SEQ and OP_SEQ.
Nothing else changes. -/
def Obligations.InitAdmission : Prop :=
  ∀ (n id sh : Bool) (s : State),
    encode (.init n id sh) = .request (0x1000#16 ||| (BitVec.ofBool n).zeroExtend 16 <<< 2 |||
      (BitVec.ofBool id).zeroExtend 16 <<< 1 ||| (BitVec.ofBool sh).zeroExtend 16) [] ∧
    (s.phase = .uninit ∨ s.phase = .ready →
      exec (.init n id sh) s = .next { s with cfgN := n, cfgId := id, cfgS := sh, curOp := .init, phase := .initSeq,
                                              seq := initSeq s.width n id sh, upc := 0 }) ∧
    (s.phase = .initSeq ∨ s.phase = .opSeq → exec (.init n id sh) s = .next { s with refused := true })

/-- R160, R161: SET_DISPLAY_CONTROL in READY starts the transmission of `0x08 | d<<2 | c<<1 | b`; elsewhere it is refused. -/
def Obligations.DisplayControlAdmission : Prop :=
  ∀ (d c b : Bool) (s : State),
    (s.phase = .ready →
      exec (.setDisplayControl d c b) s = .next { s with
        curOp := .setDisplayControl, phase := .opSeq, upc := 0,
        seq := sendByte s.width false (0x08#8 ||| bitAt d 2 ||| bitAt c 1 ||| bitAt b 0) .wait }) ∧
    (s.phase ≠ .ready → exec (.setDisplayControl d c b) s = .next { s with refused := true })

/-- R160, R162: SEEK in READY starts the transmission of `0x80 | a`, with no check of the address; elsewhere it is refused. -/
def Obligations.SeekAdmission : Prop :=
  ∀ (a : Address) (s : State),
    (s.phase = .ready →
      exec (.seek a) s = .next { s with
        curOp := .seek, phase := .opSeq, upc := 0,
        seq := sendByte s.width false (0x80#8 ||| a.zeroExtend 8) .wait }) ∧
    (s.phase ≠ .ready → exec (.seek a) s = .next { s with refused := true })

/-- R160, R163, R164: WRITE in READY starts the transmission of its bytes as data, in order, with `st.wr_len` their number;
an empty WRITE completes at once, in the step of its admission (log 11), with OK(0), no line changed and nothing performed;
elsewhere it is refused. -/
def Obligations.WriteAdmission : Prop :=
  ∀ (bytes : List Byte) (s : State), bytes.length ≤ 4095 →
    (s.phase = .ready → bytes ≠ [] →
      exec (.write bytes) s = .next { s with
        curOp := .write, phase := .opSeq, upc := 0,
        wrLen := BitVec.ofNat 12 bytes.length,
        seq := (bytes.map fun v => sendByte s.width true v .wait).flatten }) ∧
    (s.phase = .ready → bytes = [] →
      exec (.write bytes) s = .next { s with
        curOp := .none, seq := [], upc := 0, wrLen := 0#12,
        respLog := s.respLog ++ [.ok 0#12] }) ∧
    (s.phase ≠ .ready → exec (.write bytes) s = .next { s with refused := true })

/-- The model's choice, log 19: a WRITE term of more than 4095 bytes, which no request word encodes (R81, S14), is refused by
name in every state. -/
def Obligations.OverlongWriteIsRefused : Prop :=
  ∀ (bytes : List Byte) (s : State), 4095 < bytes.length → exec (.write bytes) s = .refused .payloadTooLong

/-- R166: an ABORT while the block is suspended in a Wait ends the operation, in UNINIT for INIT and in READY otherwise, with
no response and the lines as they are; at any other moment it has no effect and is no refusal. That the block is suspended
from the moment `st.upc` stands at a Wait is log 13. -/
def Obligations.AbortEffect : Prop :=
  ∀ s : State,
    (∀ d, s.phase = .initSeq ∨ s.phase = .opSeq → s.seq[s.upc]? = some (.wait d) →
      exec .abort s = .next { s with phase := if s.curOp = .init then .uninit else .ready, curOp := .none, seq := [],
                                     upc := 0, wrLen := 0#12 }) ∧
    (s.phase = .uninit ∨ s.phase = .ready ∨ (∀ d, s.seq[s.upc]? ≠ some (.wait d)) → exec .abort s = .next s)

/-! ## Controller transfers -/

/-- R94, R146: BUS_CLEAR_DISPLAY sends 0x01 with RS = 0 and waits T_CLEAR; that the row is sent as a whole is log 8, and
completion with its last micro-operation log 11. -/
def Obligations.ClearDisplayTransfer : Prop := SendsByte .busClearDisplay false 0x01#8 .clear

/-- R93, R95, R96: the entry-mode, display-control and address bytes go out with RS = 0 and T_WAIT after them (log 8,
log 11). -/
def Obligations.CommandByteTransfers : Prop :=
  (∀ id sh, SendsByte (.busEntryModeSet id sh) false (0x04#8 ||| bitAt id 1 ||| bitAt sh 0) .wait) ∧
  (∀ d c b, SendsByte (.busDisplayControl d c b) false (0x08#8 ||| bitAt d 2 ||| bitAt c 1 ||| bitAt b 0) .wait) ∧
  (∀ a, SendsByte (.busSetDdramAddress a) false (0x80#8 ||| a.zeroExtend 8) .wait)

/-- R97: BUS_WRITE_DATA sends any byte unchanged with RS = 1 (log 8, log 11). -/
def Obligations.DataByteTransfer : Prop := ∀ v, SendsByte (.busWriteData v) true v .wait

/-- R92, R98: BUS_FUNCTION_SET sends `0x20 | dl<<4 | n<<3` with RS = 0 and T_WAIT after it (R144); on FULL the byte 0x30 is
also each wake-up, with T_WAKE1, T_WAKE2 or T_WAKE3 after it (R143); log 8, log 11. -/
def Obligations.FunctionSetTransfer : Prop :=
  (∀ dl n, SendsByte (.busFunctionSet dl n) false (0x20#8 ||| bitAt dl 4 ||| bitAt n 3) .wait) ∧
  (∀ d ∈ [Duration.wake1, .wake2, .wake3], ∀ (s : State) (rest : List PinAnswer), s.width = .full →
    s.DueNext (sendByte .full false 0x30#8 d) → s.AnswersOk (sendByte .full false 0x30#8 d) rest →
    exec (.busFunctionSet true false) s =
      .next (s.sent (sendByte .full false 0x30#8 d) rest ⟨.zero, .zero, levelsOf 0x30#8⟩))

/-- R98, R143, R144: on HALF the lone nibbles 0x3 (with T_WAKE1, T_WAKE2 or T_WAKE3) and 0x2 (with T_WAIT), RS = 0 (log 8,
log 11). -/
def Obligations.NibbleTransfers : Prop :=
  (∀ d ∈ [Duration.wake1, .wake2, .wake3], SendsNibble .busWakeNibble 0x3#4 d) ∧
  SendsNibble .busSwitchNibble 0x2#4 .wait

/-- R70, R129 (log 8): a controller transfer no form of which stands next in the sequence is not sent; the nibble transfers
never stand on FULL. -/
def Obligations.TransferNotDueIsRefused : Prop :=
  ∀ (i : Instr) (s : State) forms op ph, emitterOf s.width i = some (forms, op, ph) →
    (s.busy = false ∨ ∀ ops ∈ forms, ¬ ops <+: s.seq.drop s.upc) → exec i s = .refused .transferNotDue

/-- Log 8: a controller transfer taken as one instruction is its micro-operations taken one step at a time, whatever the pin
set answers, errors included. -/
def Obligations.TransferIsItsSteps : Prop :=
  ∀ (i : Instr) (s : State) forms op ph (ops : List MicroOp),
    emitterOf s.width i = some (forms, op, ph) → ops ∈ forms → s.DueNext ops → s.HostSilent →
    exec i s = Host.Core.run Sys2Proof.core ops.length s

/-! ## Micro-operations and the exception -/

/-- R36, R13: a PinWrite the pin set answers ok puts its level on its line and moves to the next index; the last one
completes the operation, in the same step (log 11). No other line changes. -/
def Obligations.PinWriteOk : Prop :=
  ∀ (s : State) (p : Line) (l : Bool),
    s.Coherent → s.HostSilent → s.busy = true → s.seq[s.upc]? = some (.pinWrite p l) → s.pinAnswer = .ok →
    ∃ t, step s = .next t ∧
      t = (if s.upc + 1 = s.seq.length then
            ({ s.afterAnswer with out := s.out.set p (.ofBool l), trace := s.trace ++ [⟨.pinWrite p l, .ok⟩] } : State).completed
          else { s.afterAnswer with out := s.out.set p (.ofBool l), trace := s.trace ++ [⟨.pinWrite p l, .ok⟩],
                                    upc := s.upc + 1 }) ∧
      t.out.get p = .ofBool l ∧ ∀ q, q ≠ p → t.out.get q = s.out.get q

/-- R194, R195: a PinWrite the pin set answers with `err e` raises PeripheralError(e), for every e, on every line, in every
operation: the line goes to U and every other line keeps its level, the operation ends with the sequence cleared, the phase is
UNINIT for INIT and READY otherwise, and the response is ERR(e). Nothing is saved and nothing else changes. INIT is admitted
after it, and the other operations exactly when the one that failed was no INIT. -/
def Obligations.PeripheralErrorEntry : Prop :=
  ∀ (s : State) (p : Line) (l : Bool) (e : PinErr),
    s.Coherent → s.HostSilent → s.busy = true → s.seq[s.upc]? = some (.pinWrite p l) → s.pinAnswer = .err e →
    ∃ t, step s = .next t ∧
      t = { s.afterAnswer with
            out := s.out.set p .u, trace := s.trace ++ [⟨.pinWrite p l, .err e⟩],
            phase := if s.curOp = .init then .uninit else .ready,
            curOp := .none, seq := [], upc := 0, wrLen := 0#12, respLog := s.respLog ++ [.err e] } ∧
      t.out.get p = .u ∧ (∀ q, q ≠ p → t.out.get q = s.out.get q) ∧
      t.admitsInit = true ∧ (t.admitsCommand = true ↔ s.curOp ≠ .init)

/-- R192: a Wait never raises an exception and takes no answer of the pin set: it is recorded ok, no line changes, and the
next index follows, or completion after the last. That a block turn at a Wait is its completion by the timer is log 12, and
that the operation completes in the step of its last Wait log 11. -/
def Obligations.WaitNeverFails : Prop :=
  ∀ (s : State) (d : Duration),
    s.Coherent → s.HostSilent → s.busy = true → s.seq[s.upc]? = some (.wait d) →
    step s = .next (if s.upc + 1 = s.seq.length then
        ({ s with trace := s.trace ++ [⟨.wait d, .ok⟩] } : State).completed
      else { s with trace := s.trace ++ [⟨.wait d, .ok⟩], upc := s.upc + 1 })

/-- R13, R34, R148, R160: an operation whose remaining PinWrites are all answered ok runs to its end, one micro-operation a
step and in list order, and returns OK; the lines are those its micro-operations leave. That a block turn ends a Wait is
log 12, and that completion comes with the last micro-operation log 11. -/
def Obligations.OperationRunsToCompletion : Prop :=
  ∀ (s : State) (rest : List PinAnswer), s.Coherent → s.HostSilent → s.busy = true →
    s.AnswersOk (s.seq.drop s.upc) rest →
    Host.Core.run Sys2Proof.core (s.seq.length - s.upc) s =
      .next ({ s with out := (allOk (s.seq.drop s.upc)).foldl TraceEntry.drive s.out,
                      trace := s.trace ++ allOk (s.seq.drop s.upc), answers := rest } : State).completed

/-- R191, R194, R196: when the first error is that of the PinWrite `k` places on, exactly the micro-operations before it are
performed ok, it is the last one of the trace, and its error is the one reported. That a block turn ends a Wait before it is
log 12. -/
def Obligations.FirstFailureEndsTheOperation : Prop :=
  ∀ (s : State) (k : Nat) (p : Line) (l : Bool) (e : PinErr) (rest : List PinAnswer),
    s.Coherent → s.HostSilent → s.busy = true → s.seq[s.upc + k]? = some (.pinWrite p l) →
    s.answers = List.replicate (pinWriteCount ((s.seq.drop s.upc).take k)) .ok ++ .err e :: rest →
    Host.Core.run Sys2Proof.core (k + 1) s =
      .next { s with
        out := ((allOk ((s.seq.drop s.upc).take k)).foldl TraceEntry.drive s.out).set p .u,
        trace := s.trace ++ allOk ((s.seq.drop s.upc).take k) ++ [⟨.pinWrite p l, .err e⟩],
        answers := rest, phase := if s.curOp = .init then .uninit else .ready,
        curOp := .none, seq := [], upc := 0, wrLen := 0#12, respLog := s.respLog ++ [.err e] }

/-! ## Invariants and whole-machine rules -/

/-- R45, R220: the block as created, for either width; `cfg_*` are unspecified by R45 and not spoken of. -/
def Obligations.ResetValues : Prop :=
  ∀ w : BusWidth,
    (State.create w).width = w ∧ (State.create w).phase = .uninit ∧ (State.create w).seq = [] ∧ (State.create w).upc = 0 ∧
    (State.create w).curOp = .none ∧ (State.create w).wrLen = 0#12 ∧ (State.create w).out.e = .u ∧
    (State.create w).out.rs = .u ∧ (State.create w).out.d = List.replicate w.lines .u ∧ (State.create w).respLog = [] ∧
    (State.create w).refused = false ∧ (State.create w).trace = []

/-- The three invariants below hold at reset, for either width. -/
def Obligations.ResetMeetsTheInvariants : Prop :=
  ∀ w : BusWidth, (State.create w).Coherent ∧ (State.create w).SeqIsExpansion ∧ (State.create w).LinesFollowTrace ∧
    State.reset = State.create .half

/-- R31, R34, R35, R36: every step from a coherent state, reachable or not, gives a coherent state. -/
def Obligations.StepKeepsCoherence : Prop :=
  ∀ s t : State, s.Coherent → step s = .next t → t.Coherent

/-- R34, R140, R161 to R163: every step keeps the micro-sequence the expansion of the operation in progress. -/
def Obligations.StepKeepsTheExpansion : Prop :=
  ∀ s t : State, s.SeqIsExpansion → step s = .next t → t.SeqIsExpansion

/-- R10, R36: every step keeps the line levels those the trace determines. -/
def Obligations.StepKeepsLinesOfTrace : Prop :=
  ∀ s t : State, s.LinesFollowTrace → step s = .next t → t.LinesFollowTrace

/-- R127: a coherent state's sequence that is an expansion has at most 69615 micro-operations, which a WRITE of 4095 bytes on
HALF reaches. -/
def Obligations.SequenceIsBounded : Prop :=
  (∀ s : State, s.SeqIsExpansion → s.seq.length ≤ 69615) ∧
  (∀ bytes : List Byte, bytes.length = 4095 → (writeSeq .half bytes).length = 69615)

/-- R36 (log 15): no step of a coherent state faults. -/
def Obligations.CoherentStepsNeverFault : Prop :=
  ∀ (s : State) (r : Fault), s.Coherent → step s ≠ .fault r

/-- With the host silent, a coherent state always steps: no state of a run is stuck (R202, R205). -/
def Obligations.CoherentSilentStatesStep : Prop :=
  ∀ s : State, s.Coherent → s.HostSilent → s.Steps

/-- R38, R193: every request that is not admitted sets `st.refused`, no instruction ever clears it, and once it is set the run
has no meaning (that the step is then refused is log 7). The requests that are not admitted: an INIT while busy, a command
outside READY, and a due request that is no instruction, for its opcode or reserved bits (R87, R88) or its payload (log 6). -/
def Obligations.RefusalIsSticky : Prop :=
  (∀ (i : Instr) (s t : State), s.refused = true → exec i s = .next t → t.refused = true) ∧
  (∀ s : State, s.refused = true → step s = .refused .runWithoutMeaning) ∧
  (∀ (n id sh : Bool) (s t : State), s.busy = true → exec (.init n id sh) s = .next t → t.refused = true) ∧
  (∀ (i : Instr) (s t : State), s.phase ≠ .ready →
    (∃ d c b, i = .setDisplayControl d c b) ∨ (∃ a, i = .seek a) ∨ (∃ bytes, i = .write bytes) →
    exec i s = .next t → t.refused = true) ∧
  (∀ (s : State) (q : Word) (payload : List Byte) (rest : List Arrival) (r : Reject), s.refused = false →
    s.NextDue (.request q payload) rest → decode (.request q payload) = .error r →
    step s = .next { s with inbox := rest, refused := true })

/-- R33: no step changes the bus width. -/
def Obligations.WidthNeverChanges : Prop :=
  ∀ s t : State, step s = .next t → t.width = s.width

/-- R32: no step writes the configuration registers but one that admits a due INIT, and then from its operands. -/
def Obligations.ConfigurationIsInits : Prop :=
  ∀ s t : State, step s = .next t →
    (t.cfgN = s.cfgN ∧ t.cfgId = s.cfgId ∧ t.cfgS = s.cfgS) ∨
    (∃ n id sh rest, s.NextDue (encode (.init n id sh)) rest ∧ s.busy = false ∧
      t.curOp = .init ∧ t.cfgN = n ∧ t.cfgId = id ∧ t.cfgS = sh)

/-- R37, R166: a step appends at most one response, and only when no operation is left in progress; and when the block's own
turn, the next arrival not being due, ends an operation, it appends exactly one. -/
def Obligations.OneResponsePerOperation : Prop :=
  ∀ s t : State, step s = .next t →
    (t.respLog = s.respLog ∨ ∃ r, t.respLog = s.respLog ++ [r] ∧ t.busy = false) ∧
    ((¬ ∃ p rest, s.NextDue p rest) → s.busy = true → t.busy = false → ∃ r, t.respLog = s.respLog ++ [r])

/-- R70, R13: what a step adds to the trace are the next micro-operations of the sequence, in list order. -/
def Obligations.TraceFollowsTheSequence : Prop :=
  ∀ s t : State, step s = .next t →
    ∃ (n : Nat) (more : List TraceEntry), t.trace = s.trace ++ more ∧ more.map (·.op) = (s.seq.drop s.upc).take n

/-- R37, R128, R206: the block reads neither the response log, nor a line, nor the trace: two states that differ in these only
step alike, and go on differing in these only. -/
def Obligations.BlockReadsNoObservation : Prop :=
  ∀ (s : State) (o : OutLines) (tr : List TraceEntry) (rl : List Response),
    (∀ t, step s = .next t → ∃ u, step { s with out := o, trace := tr, respLog := rl } = .next u ∧
      { u with out := t.out, trace := t.trace, respLog := t.respLog } = t) ∧
    (∀ r, step s = .fault r → step { s with out := o, trace := tr, respLog := rl } = .fault r) ∧
    (∀ r, step s = .refused r → step { s with out := o, trace := tr, respLog := rl } = .refused r)

/-- R222, R13: with no operation in progress and no request, the block waits and nothing changes. -/
def Obligations.IdleBlockWaits : Prop :=
  ∀ s : State, s.HostSilent → s.busy = false → step s = .next s

/-! ## The step -/

/-- A due packet that decodes to an instruction: the step takes it from the inbox and is that instruction's meaning (log 5). -/
def Obligations.StepRunsDecodedInstruction : Prop :=
  ∀ (s : State) (p : Packet) (rest : List Arrival) (i : Instr),
    s.refused = false → s.NextDue p rest → decode p = .ok i → step s = exec i { s with inbox := rest }

/-- The table's words (log 9, log 10): the step after `withFetchWord` is the meaning of the instruction they decode to. -/
def Obligations.StepRunsTheFetchedWord : Prop :=
  ∀ (s : State) (nbits w : Nat) (i : Instr), s.refused = false → decodeTableWord nbits w = some i →
    step (s.withFetchWord nbits w) = exec i (s.placeTransfer i)

/-- An arrival that is not due yet leaves the turn to the block (log 5): inside an operation the block performs its next
micro-operation, with none it waits. An arrival that counts block turns is one turn nearer after it; one that waits for the
operation to end waits on. -/
def Obligations.BlockTurnBeforeTheArrival : Prop :=
  ∀ (s : State) (p : Packet) (rest : List Arrival) (n : Nat), s.Coherent → s.refused = false →
    (s.busy = true → s.inbox = ⟨.afterTurns (n + 1), p⟩ :: rest →
      step s = .next { s.microStep with inbox := ⟨.afterTurns n, p⟩ :: rest }) ∧
    (s.busy = false → s.inbox = ⟨.afterTurns (n + 1), p⟩ :: rest →
      step s = .next { s with inbox := ⟨.afterTurns n, p⟩ :: rest }) ∧
    (s.busy = true → s.inbox = ⟨.whenIdle, p⟩ :: rest →
      step s = .next { s.microStep with inbox := ⟨.whenIdle, p⟩ :: rest })

/-! ## Timing and notation -/

/-- R233: the sums of the Wait parameters of each operation, whatever the durations are. -/
def Obligations.WaitSums : Prop :=
  ∀ ns : Duration → Nat,
    (∀ n id sh, waitSumNs ns (initSeq .half n id sh) =
      ns .powerOn + 12 * ns .pulse + ns .wake1 + ns .wake2 + ns .wake3 + 8 * ns .wait + ns .clear) ∧
    (∀ n id sh, waitSumNs ns (initSeq .full n id sh) =
      ns .powerOn + 7 * ns .pulse + ns .wake1 + ns .wake2 + ns .wake3 + 3 * ns .wait + ns .clear) ∧
    (∀ d c b, waitSumNs ns (displayControlSeq .half d c b) = 2 * ns .pulse + 2 * ns .wait ∧
      waitSumNs ns (displayControlSeq .full d c b) = ns .pulse + ns .wait) ∧
    (∀ a, waitSumNs ns (seekSeq .half a) = 2 * ns .pulse + 2 * ns .wait ∧
      waitSumNs ns (seekSeq .full a) = ns .pulse + ns .wait) ∧
    (∀ bytes, waitSumNs ns (writeSeq .half bytes) = bytes.length * (2 * ns .pulse + 2 * ns .wait) ∧
      waitSumNs ns (writeSeq .full bytes) = bytes.length * (ns .pulse + ns .wait))

/-- R101, R102: every request the assembler gives is well-formed, so a WRITE longer than 4095 bytes never assembles. -/
def Obligations.AssemblerOutputIsWellFormed : Prop :=
  ∀ (line : List Char) (is : List Instr), assembleLine line = .ok is → ∀ i ∈ is, i.wellFormed = true

/-! ## Rejected payloads, and the controller after a failure -/

/-- The model's choice, log 6: a due request whose payload is not of the length its word announces (R85, R89)
sets `st.refused` and does nothing else. -/
def Obligations.PayloadMismatchIsRefused : Prop :=
  ∀ (s : State) (q : Word) (payload : List Byte) (rest : List Arrival),
    payload.length ≠ announcedLength q →
    s.refused = false → s.NextDue (.request q payload) rest →
    step s = .next { s with inbox := rest, refused := true }

/-- R41, R66, R195 and R229 under the informative view (log 16): any failed pin write, on any line, and any ABORT that takes
effect lose the controller; while it is lost nothing it is sent, INIT's own transfers included, has a specified effect on it;
it is found again when an INIT completes, on a platform that meets the timing bounds and its other duties (log 20), and not
before. -/
def Obligations.ControllerIsLostUntilInit : Prop :=
  (∀ (pf : Platform) (w : BusWidth) (o : OutLines) (v : ControllerView) (p : Line) (l : Bool) (e : PinErr),
    (v.after pf w o [.performed ⟨.pinWrite p l, .err e⟩]).lost = true ∧ (v.after pf w o [.aborted]).lost = true) ∧
  (∀ (pf : Platform) (w : BusWidth) (o : OutLines) (v : ControllerView) (events : List ControllerEvent),
    v.lost = true → .initDone ∉ events →
    (v.after pf w o events).lost = true ∧ (v.after pf w o events).mode = .unknown ∧
    ∃ k, (v.after pf w o events).items = v.items ++ List.replicate k .unspecified) ∧
  (∀ (pf : Platform) (s t : State) (v : ControllerView), s.Coherent → step s = .next t → s.busy = true → t.busy = false →
    ((v.afterStep pf s t).lost = true ↔
      pf.dutiesMet = false ∨ t.respLog = s.respLog ∨ (∃ e, t.respLog = s.respLog ++ [.err e]) ∨ (v.lost = true ∧ s.curOp ≠ .init)))

/-- R228 under the informative view (log 16): when a duration parameter is below its bound of R225, or an oscillator's raised
one, what the controller does with any trace is unspecified, completed INITs included: its mode stays unknown and every item
it receives is unspecified. -/
def Obligations.ShortWaitsLeaveTheControllerUnspecified : Prop :=
  ∀ (pf : Platform) (d : Duration), pf.durationNs d < lowerBoundNsAt pf.supply pf.oscillatorKhz d →
    ∀ (w : BusWidth) (o : OutLines) (v : ControllerView) (events : List ControllerEvent),
      (v.after pf w o events).lost = true ∧ (v.after pf w o events).mode = .unknown ∧
      ∃ k, (v.after pf w o events).items = v.items ++ List.replicate k .unspecified
end

