-- ==== Sys2Proof/Laws/Decode.lean ====
section
/-! SUPPORT. The masks of 30_encoding.md section 3 and the field reads of the decoder, as arithmetic on the word's number. -/

namespace Sys2Proof

/-- A mask of all bits from k up, below 2^n, cuts off the low k bits. -/
theorem and_high_mask (n k v : Nat) (hv : v < 2 ^ n) : v &&& (2 ^ n - 2 ^ k) = v / 2 ^ k * 2 ^ k := by
  apply Nat.eq_of_testBit_eq
  intro i
  rw [Nat.testBit_and, Nat.testBit_mul_two_pow]
  by_cases hk : k ≤ i
  · have hi : v.testBit i = (v / 2 ^ k).testBit (i - k) := by
      rw [Nat.testBit_div_two_pow]; congr 1; omega
    by_cases hn : i < n
    · have : (2 ^ n - 2 ^ k).testBit i = true := by
        have h1 : 2 ^ n - 2 ^ k = (2 ^ (n - k) - 1) * 2 ^ k := by
          rw [Nat.sub_mul, ← pow_add, one_mul]; congr 2; omega
        rw [h1, Nat.testBit_mul_two_pow]
        simp [hk]; omega
      simp [this, hk, hi]
    · have : v.testBit i = false :=
        Nat.testBit_lt_two_pow (lt_of_lt_of_le hv (Nat.pow_le_pow_right (by omega) (by omega)))
      rw [← hi]; simp [this]
  · have : (2 ^ n - 2 ^ k).testBit i = false ∨ v.testBit i = false := by
      by_cases hkn : k ≤ n
      · left
        have h1 : 2 ^ n - 2 ^ k = (2 ^ (n - k) - 1) * 2 ^ k := by
          rw [Nat.sub_mul, ← pow_add, one_mul]; congr 2; omega
        rw [h1, Nat.testBit_mul_two_pow]; simp [hk]
      · left
        have : 2 ^ n - 2 ^ k = 0 := Nat.sub_eq_zero_of_le (Nat.pow_le_pow_right (by omega) (by omega))
        simp [this]
    rcases this with h | h <;> simp [h, hk]

theorem extract_eq_zero_iff {w : Nat} (q : BitVec w) (lo len : Nat) :
    q.extractLsb' lo len = 0#len ↔ q.toNat / 2 ^ lo % 2 ^ len = 0 := by
  rw [← BitVec.toNat_inj]
  simp [BitVec.extractLsb'_toNat, Nat.shiftRight_eq_div_pow]

theorem extract_toNat {w : Nat} (q : BitVec w) (lo len : Nat) :
    (q.extractLsb' lo len).toNat = q.toNat / 2 ^ lo % 2 ^ len := by
  simp [BitVec.extractLsb'_toNat, Nat.shiftRight_eq_div_pow]

theorem append_toNat {m n : Nat} (a : BitVec m) (b : BitVec n) : (a ++ b).toNat = a.toNat * 2 ^ n + b.toNat := by
  rw [BitVec.toNat_append, ← Nat.shiftLeft_add_eq_or_of_lt b.isLt, Nat.shiftLeft_eq]

/-- Section 3's rows for request words, as ranges of the word's high part. -/
theorem requestRows_covers (q : Word) :
    (OpcodeRow.covers ⟨0xFFF8, 0x1000⟩ q.toNat = decide (q.toNat / 8 = 0x200)) ∧
    (OpcodeRow.covers ⟨0xFFF8, 0x2000⟩ q.toNat = decide (q.toNat / 8 = 0x400)) ∧
    (OpcodeRow.covers ⟨0xFF80, 0x3000⟩ q.toNat = decide (q.toNat / 128 = 0x60)) ∧
    (OpcodeRow.covers ⟨0xF000, 0x4000⟩ q.toNat = decide (q.toNat / 4096 = 4)) ∧
    (OpcodeRow.covers ⟨0xFFFF, 0x5000⟩ q.toNat = decide (q.toNat = 0x5000)) := by
  have h8 := and_high_mask 16 3 q.toNat q.isLt
  have h128 := and_high_mask 16 7 q.toNat q.isLt
  have h4096 := and_high_mask 16 12 q.toNat q.isLt
  have h1 := and_high_mask 16 0 q.toNat q.isLt
  norm_num at h8 h128 h4096 h1
  simp only [OpcodeRow.covers, h8, h128, h4096, h1, Bool.beq_eq_decide_eq]
  refine ⟨?_, ?_, ?_, ?_, trivial⟩ <;> (apply decide_eq_decide.mpr; omega)

end Sys2Proof
end

