-- ==== Sys2Proof/Laws/Framer.lean ====
section
/-! SUPPORT. The shapes of the framer's lists: lengths and the lines they write. -/

namespace Sys2Proof.Machine

theorem presentFrom_length {n : Nat} (v : BitVec n) (j k : Nat) : (presentFrom v j k).length = k := by
  induction k generalizing j with
  | zero => rfl
  | succ k ih => simp [presentFrom, ih]

theorem presentFrom_mem {n : Nat} (v : BitVec n) (j k : Nat) (op : MicroOp) (h : op ∈ presentFrom v j k) :
    ∃ i, i < j + k ∧ op = .pinWrite (.d i) (v.getLsbD i) := by
  induction k generalizing j with
  | zero => simp [presentFrom] at h
  | succ k ih =>
    simp only [presentFrom, List.mem_cons] at h
    rcases h with rfl | h
    · exact ⟨j, by omega, rfl⟩
    · obtain ⟨i, hi, rfl⟩ := ih (j + 1) h
      exact ⟨i, by omega, rfl⟩

theorem sendNibble_fits (rs : Bool) (x : Nibble) (d : Duration) (op : MicroOp) (h : op ∈ sendNibble rs x d)
    (w : BusWidth) : op.fits w = true := by
  simp only [sendNibble, present, strobe, List.mem_cons, List.mem_append, List.not_mem_nil, or_false] at h
  rcases h with rfl | h | rfl | rfl | rfl | rfl <;> try rfl
  obtain ⟨i, hi, rfl⟩ := presentFrom_mem x 0 4 op h
  cases w
  · show decide (i < 4) = true; exact decide_eq_true (by omega)
  · show decide (i < 8) = true; exact decide_eq_true (by omega)

theorem sendByte_fits (w : BusWidth) (rs : Bool) (v : Byte) (d : Duration) (op : MicroOp)
    (h : op ∈ sendByte w rs v d) : op.fits w = true := by
  cases w
  · simp only [sendByte, sendByteHalf, present, strobe, List.mem_cons, List.mem_append, List.not_mem_nil, or_false] at h
    rcases h with rfl | ((h | rfl | rfl | rfl | rfl) | h) | rfl | rfl | rfl | rfl <;> try rfl
    all_goals
      obtain ⟨i, hi, rfl⟩ := presentFrom_mem _ 0 4 op h
      show decide (i < 4) = true; exact decide_eq_true (by omega)
  · simp only [sendByte, sendByteFull, present, strobe, List.mem_cons, List.mem_append, List.not_mem_nil, or_false] at h
    rcases h with rfl | h | rfl | rfl | rfl | rfl <;> try rfl
    obtain ⟨i, hi, rfl⟩ := presentFrom_mem _ 0 8 op h
    show decide (i < 8) = true; exact decide_eq_true (by omega)

theorem wakeUp_fits (w : BusWidth) (d : Duration) (op : MicroOp) (h : op ∈ wakeUp w d) : op.fits w = true := by
  cases w
  · exact sendNibble_fits _ _ _ _ h _
  · exact sendByte_fits .full _ _ _ _ h

theorem initSeq_fits (w : BusWidth) (n id s : Bool) (op : MicroOp) (h : op ∈ initSeq w n id s) : op.fits w = true := by
  simp only [initSeq, functionSetRetry3, List.mem_append] at h
  rcases h with ((((h | (h | h) | h) | h) | h) | h) | h
  · simp only [powerOnWait, List.mem_singleton] at h; subst h; rfl
  · exact wakeUp_fits _ _ _ h
  · exact wakeUp_fits _ _ _ h
  · exact wakeUp_fits _ _ _ h
  · cases w
    · simp only [functionSetFinal, List.mem_append] at h
      rcases h with h | h
      · exact sendNibble_fits _ _ _ _ h _
      · exact sendByte_fits .half _ _ _ _ h
    · exact sendByte_fits .full _ _ _ _ h
  · exact sendByte_fits _ _ _ _ _ h
  · exact sendByte_fits _ _ _ _ _ h
  · exact sendByte_fits _ _ _ _ _ h

theorem writeSeq_fits (w : BusWidth) (bytes : List Byte) (op : MicroOp) (h : op ∈ writeSeq w bytes) :
    op.fits w = true := by
  induction bytes with
  | nil => simp [writeSeq] at h
  | cons v rest ih =>
    simp only [writeSeq, List.mem_append] at h
    rcases h with h | h
    · exact sendByte_fits _ _ _ _ _ h
    · exact ih h

/-- A transmission is never empty: it begins with the write of RS. -/
theorem sendByte_cons (w : BusWidth) (rs : Bool) (v : Byte) (d : Duration) :
    ∃ ops, sendByte w rs v d = .pinWrite .rs rs :: ops := by cases w <;> exact ⟨_, rfl⟩

theorem initSeq_cons (w : BusWidth) (n id s : Bool) : ∃ ops, initSeq w n id s = .wait .powerOn :: ops := ⟨_, rfl⟩

theorem writeSeq_cons (w : BusWidth) (v : Byte) (rest : List Byte) :
    ∃ ops, writeSeq w (v :: rest) = .pinWrite .rs true :: ops := by
  obtain ⟨ops, h⟩ := sendByte_cons w true v .wait
  exact ⟨ops ++ writeSeq w rest, by simp [writeSeq, h]⟩

end Sys2Proof.Machine
end

