-- ==== Sys2Proof/Laws/State.lean ====
section
/-! SUPPORT. One lemma for each field of the state and each update of Machine/Ops.lean, so that no proof unfolds a record update. -/

namespace Sys2Proof.Machine.State

variable (s : State)

/-! ## `setLine` -/

@[simp] theorem setLine_width (p : Line) (l : Level) : (s.setLine p l).width = s.width := rfl
@[simp] theorem setLine_phase (p : Line) (l : Level) : (s.setLine p l).phase = s.phase := rfl
@[simp] theorem setLine_cfgN (p : Line) (l : Level) : (s.setLine p l).cfgN = s.cfgN := rfl
@[simp] theorem setLine_cfgId (p : Line) (l : Level) : (s.setLine p l).cfgId = s.cfgId := rfl
@[simp] theorem setLine_cfgS (p : Line) (l : Level) : (s.setLine p l).cfgS = s.cfgS := rfl
@[simp] theorem setLine_seq (p : Line) (l : Level) : (s.setLine p l).seq = s.seq := rfl
@[simp] theorem setLine_upc (p : Line) (l : Level) : (s.setLine p l).upc = s.upc := rfl
@[simp] theorem setLine_curOp (p : Line) (l : Level) : (s.setLine p l).curOp = s.curOp := rfl
@[simp] theorem setLine_wrLen (p : Line) (l : Level) : (s.setLine p l).wrLen = s.wrLen := rfl
@[simp] theorem setLine_out (p : Line) (l : Level) : (s.setLine p l).out = s.out.set p l := rfl
@[simp] theorem setLine_respLog (p : Line) (l : Level) : (s.setLine p l).respLog = s.respLog := rfl
@[simp] theorem setLine_refused (p : Line) (l : Level) : (s.setLine p l).refused = s.refused := rfl
@[simp] theorem setLine_trace (p : Line) (l : Level) : (s.setLine p l).trace = s.trace := rfl
@[simp] theorem setLine_inbox (p : Line) (l : Level) : (s.setLine p l).inbox = s.inbox := rfl
@[simp] theorem setLine_answers (p : Line) (l : Level) : (s.setLine p l).answers = s.answers := rfl
@[simp] theorem setLine_draws (p : Line) (l : Level) : (s.setLine p l).draws = s.draws := rfl
@[simp] theorem setLine_busy (p : Line) (l : Level) : (s.setLine p l).busy = s.busy := rfl
@[simp] theorem setLine_nextOp (p : Line) (l : Level) : (s.setLine p l).nextOp = s.nextOp := rfl
@[simp] theorem setLine_okCount (p : Line) (l : Level) : (s.setLine p l).okCount = s.okCount := rfl
@[simp] theorem setLine_pinAnswer (p : Line) (l : Level) : (s.setLine p l).pinAnswer = s.pinAnswer := rfl

/-! ## `record` -/

@[simp] theorem record_width (op : MicroOp) (a : PinAnswer) : (s.record op a).width = s.width := rfl
@[simp] theorem record_phase (op : MicroOp) (a : PinAnswer) : (s.record op a).phase = s.phase := rfl
@[simp] theorem record_cfgN (op : MicroOp) (a : PinAnswer) : (s.record op a).cfgN = s.cfgN := rfl
@[simp] theorem record_cfgId (op : MicroOp) (a : PinAnswer) : (s.record op a).cfgId = s.cfgId := rfl
@[simp] theorem record_cfgS (op : MicroOp) (a : PinAnswer) : (s.record op a).cfgS = s.cfgS := rfl
@[simp] theorem record_seq (op : MicroOp) (a : PinAnswer) : (s.record op a).seq = s.seq := rfl
@[simp] theorem record_upc (op : MicroOp) (a : PinAnswer) : (s.record op a).upc = s.upc := rfl
@[simp] theorem record_curOp (op : MicroOp) (a : PinAnswer) : (s.record op a).curOp = s.curOp := rfl
@[simp] theorem record_wrLen (op : MicroOp) (a : PinAnswer) : (s.record op a).wrLen = s.wrLen := rfl
@[simp] theorem record_out (op : MicroOp) (a : PinAnswer) : (s.record op a).out = s.out := rfl
@[simp] theorem record_respLog (op : MicroOp) (a : PinAnswer) : (s.record op a).respLog = s.respLog := rfl
@[simp] theorem record_refused (op : MicroOp) (a : PinAnswer) : (s.record op a).refused = s.refused := rfl
@[simp] theorem record_trace (op : MicroOp) (a : PinAnswer) : (s.record op a).trace = s.trace ++ [⟨op, a⟩] := rfl
@[simp] theorem record_inbox (op : MicroOp) (a : PinAnswer) : (s.record op a).inbox = s.inbox := rfl
@[simp] theorem record_answers (op : MicroOp) (a : PinAnswer) : (s.record op a).answers = s.answers := rfl
@[simp] theorem record_draws (op : MicroOp) (a : PinAnswer) : (s.record op a).draws = s.draws := rfl
@[simp] theorem record_busy (op : MicroOp) (a : PinAnswer) : (s.record op a).busy = s.busy := rfl
@[simp] theorem record_nextOp (op : MicroOp) (a : PinAnswer) : (s.record op a).nextOp = s.nextOp := rfl
@[simp] theorem record_okCount (op : MicroOp) (a : PinAnswer) : (s.record op a).okCount = s.okCount := rfl
@[simp] theorem record_pinAnswer (op : MicroOp) (a : PinAnswer) : (s.record op a).pinAnswer = s.pinAnswer := rfl

/-! ## `respond` -/

@[simp] theorem respond_width (r : Response) : (s.respond r).width = s.width := rfl
@[simp] theorem respond_phase (r : Response) : (s.respond r).phase = s.phase := rfl
@[simp] theorem respond_cfgN (r : Response) : (s.respond r).cfgN = s.cfgN := rfl
@[simp] theorem respond_cfgId (r : Response) : (s.respond r).cfgId = s.cfgId := rfl
@[simp] theorem respond_cfgS (r : Response) : (s.respond r).cfgS = s.cfgS := rfl
@[simp] theorem respond_seq (r : Response) : (s.respond r).seq = s.seq := rfl
@[simp] theorem respond_upc (r : Response) : (s.respond r).upc = s.upc := rfl
@[simp] theorem respond_curOp (r : Response) : (s.respond r).curOp = s.curOp := rfl
@[simp] theorem respond_wrLen (r : Response) : (s.respond r).wrLen = s.wrLen := rfl
@[simp] theorem respond_out (r : Response) : (s.respond r).out = s.out := rfl
@[simp] theorem respond_respLog (r : Response) : (s.respond r).respLog = s.respLog ++ [r] := rfl
@[simp] theorem respond_refused (r : Response) : (s.respond r).refused = s.refused := rfl
@[simp] theorem respond_trace (r : Response) : (s.respond r).trace = s.trace := rfl
@[simp] theorem respond_inbox (r : Response) : (s.respond r).inbox = s.inbox := rfl
@[simp] theorem respond_answers (r : Response) : (s.respond r).answers = s.answers := rfl
@[simp] theorem respond_draws (r : Response) : (s.respond r).draws = s.draws := rfl
@[simp] theorem respond_busy (r : Response) : (s.respond r).busy = s.busy := rfl
@[simp] theorem respond_nextOp (r : Response) : (s.respond r).nextOp = s.nextOp := rfl
@[simp] theorem respond_okCount (r : Response) : (s.respond r).okCount = s.okCount := rfl
@[simp] theorem respond_pinAnswer (r : Response) : (s.respond r).pinAnswer = s.pinAnswer := rfl

/-! ## `markRefused` -/

@[simp] theorem markRefused_width : s.markRefused.width = s.width := rfl
@[simp] theorem markRefused_phase : s.markRefused.phase = s.phase := rfl
@[simp] theorem markRefused_cfgN : s.markRefused.cfgN = s.cfgN := rfl
@[simp] theorem markRefused_cfgId : s.markRefused.cfgId = s.cfgId := rfl
@[simp] theorem markRefused_cfgS : s.markRefused.cfgS = s.cfgS := rfl
@[simp] theorem markRefused_seq : s.markRefused.seq = s.seq := rfl
@[simp] theorem markRefused_upc : s.markRefused.upc = s.upc := rfl
@[simp] theorem markRefused_curOp : s.markRefused.curOp = s.curOp := rfl
@[simp] theorem markRefused_wrLen : s.markRefused.wrLen = s.wrLen := rfl
@[simp] theorem markRefused_out : s.markRefused.out = s.out := rfl
@[simp] theorem markRefused_respLog : s.markRefused.respLog = s.respLog := rfl
@[simp] theorem markRefused_refused : s.markRefused.refused = true := rfl
@[simp] theorem markRefused_trace : s.markRefused.trace = s.trace := rfl
@[simp] theorem markRefused_inbox : s.markRefused.inbox = s.inbox := rfl
@[simp] theorem markRefused_answers : s.markRefused.answers = s.answers := rfl
@[simp] theorem markRefused_draws : s.markRefused.draws = s.draws := rfl
@[simp] theorem markRefused_busy : s.markRefused.busy = s.busy := rfl
@[simp] theorem markRefused_nextOp : s.markRefused.nextOp = s.nextOp := rfl
@[simp] theorem markRefused_okCount : s.markRefused.okCount = s.okCount := rfl
@[simp] theorem markRefused_pinAnswer : s.markRefused.pinAnswer = s.pinAnswer := rfl

/-! ## `endOp` -/

@[simp] theorem endOp_width (ph : Phase) : (s.endOp ph).width = s.width := rfl
@[simp] theorem endOp_phase (ph : Phase) : (s.endOp ph).phase = ph := rfl
@[simp] theorem endOp_cfgN (ph : Phase) : (s.endOp ph).cfgN = s.cfgN := rfl
@[simp] theorem endOp_cfgId (ph : Phase) : (s.endOp ph).cfgId = s.cfgId := rfl
@[simp] theorem endOp_cfgS (ph : Phase) : (s.endOp ph).cfgS = s.cfgS := rfl
@[simp] theorem endOp_seq (ph : Phase) : (s.endOp ph).seq = [] := rfl
@[simp] theorem endOp_upc (ph : Phase) : (s.endOp ph).upc = 0 := rfl
@[simp] theorem endOp_curOp (ph : Phase) : (s.endOp ph).curOp = .none := rfl
@[simp] theorem endOp_wrLen (ph : Phase) : (s.endOp ph).wrLen = 0#12 := rfl
@[simp] theorem endOp_out (ph : Phase) : (s.endOp ph).out = s.out := rfl
@[simp] theorem endOp_respLog (ph : Phase) : (s.endOp ph).respLog = s.respLog := rfl
@[simp] theorem endOp_refused (ph : Phase) : (s.endOp ph).refused = s.refused := rfl
@[simp] theorem endOp_trace (ph : Phase) : (s.endOp ph).trace = s.trace := rfl
@[simp] theorem endOp_inbox (ph : Phase) : (s.endOp ph).inbox = s.inbox := rfl
@[simp] theorem endOp_answers (ph : Phase) : (s.endOp ph).answers = s.answers := rfl
@[simp] theorem endOp_draws (ph : Phase) : (s.endOp ph).draws = s.draws := rfl

/-! ## `afterAnswer`: only `answers` and `draws` change -/

@[simp] theorem afterAnswer_width : s.afterAnswer.width = s.width := by unfold afterAnswer; split <;> rfl
@[simp] theorem afterAnswer_phase : s.afterAnswer.phase = s.phase := by unfold afterAnswer; split <;> rfl
@[simp] theorem afterAnswer_cfgN : s.afterAnswer.cfgN = s.cfgN := by unfold afterAnswer; split <;> rfl
@[simp] theorem afterAnswer_cfgId : s.afterAnswer.cfgId = s.cfgId := by unfold afterAnswer; split <;> rfl
@[simp] theorem afterAnswer_cfgS : s.afterAnswer.cfgS = s.cfgS := by unfold afterAnswer; split <;> rfl
@[simp] theorem afterAnswer_seq : s.afterAnswer.seq = s.seq := by unfold afterAnswer; split <;> rfl
@[simp] theorem afterAnswer_upc : s.afterAnswer.upc = s.upc := by unfold afterAnswer; split <;> rfl
@[simp] theorem afterAnswer_curOp : s.afterAnswer.curOp = s.curOp := by unfold afterAnswer; split <;> rfl
@[simp] theorem afterAnswer_wrLen : s.afterAnswer.wrLen = s.wrLen := by unfold afterAnswer; split <;> rfl
@[simp] theorem afterAnswer_out : s.afterAnswer.out = s.out := by unfold afterAnswer; split <;> rfl
@[simp] theorem afterAnswer_respLog : s.afterAnswer.respLog = s.respLog := by unfold afterAnswer; split <;> rfl
@[simp] theorem afterAnswer_refused : s.afterAnswer.refused = s.refused := by unfold afterAnswer; split <;> rfl
@[simp] theorem afterAnswer_trace : s.afterAnswer.trace = s.trace := by unfold afterAnswer; split <;> rfl
@[simp] theorem afterAnswer_inbox : s.afterAnswer.inbox = s.inbox := by unfold afterAnswer; split <;> rfl
@[simp] theorem afterAnswer_busy : s.afterAnswer.busy = s.busy := by unfold afterAnswer; split <;> rfl
@[simp] theorem afterAnswer_nextOp : s.afterAnswer.nextOp = s.nextOp := by unfold afterAnswer; split <;> rfl
@[simp] theorem afterAnswer_okCount : s.afterAnswer.okCount = s.okCount := by unfold afterAnswer; split <;> rfl

theorem afterAnswer_listed {a : PinAnswer} {rest : List PinAnswer} (h : s.answers = a :: rest) :
    s.afterAnswer = { s with answers := rest } := by simp [afterAnswer, h]

theorem pinAnswer_listed {a : PinAnswer} {rest : List PinAnswer} (h : s.answers = a :: rest) :
    s.pinAnswer = a := by simp [pinAnswer, h]

/-! ## Admission fields -/

theorem busy_eq_false_iff : s.busy = false ↔ s.phase = .uninit ∨ s.phase = .ready := by
  unfold busy; cases s.phase <;> simp

theorem busy_eq_true_iff : s.busy = true ↔ s.phase = .initSeq ∨ s.phase = .opSeq := by
  unfold busy; cases s.phase <;> simp

theorem admitsInit_eq : s.admitsInit = !s.busy := by unfold admitsInit busy; cases s.phase <;> rfl

theorem admitsCommand_eq : s.admitsCommand = decide (s.phase = .ready) := by
  unfold admitsCommand; cases s.phase <;> rfl

end Sys2Proof.Machine.State
end

