-- ==== Sys2Proof/Laws/Ops.lean ====
section
/-! SUPPORT. What each shared operation of Machine/Ops.lean can do, said once. -/

namespace Sys2Proof.Machine

/-! ## Lines -/

namespace OutLines

variable (o : OutLines) (l : Level)

@[simp] theorem set_e_e : (o.set .e l).e = l := rfl
@[simp] theorem set_e_rs : (o.set .e l).rs = o.rs := rfl
@[simp] theorem set_e_d : (o.set .e l).d = o.d := rfl
@[simp] theorem set_rs_e : (o.set .rs l).e = o.e := rfl
@[simp] theorem set_rs_rs : (o.set .rs l).rs = l := rfl
@[simp] theorem set_rs_d : (o.set .rs l).d = o.d := rfl
@[simp] theorem set_d_e (i : Nat) : (o.set (.d i) l).e = o.e := rfl
@[simp] theorem set_d_rs (i : Nat) : (o.set (.d i) l).rs = o.rs := rfl
@[simp] theorem set_d_d (i : Nat) : (o.set (.d i) l).d = o.d.set i l := rfl

@[simp] theorem set_length (p : Line) : (o.set p l).d.length = o.d.length := by cases p <;> simp

/-- A line that was written reads back, if the block has it. -/
theorem get_set_same (p : Line) (h : ∀ i, p = .d i → i < o.d.length) : (o.set p l).get p = l := by
  cases p with
  | e => rfl
  | rs => rfl
  | d i => simp [get, h i rfl]

/-- Every other line keeps its level. -/
theorem get_set_other (p q : Line) (h : q ≠ p) : (o.set p l).get q = o.get q := by
  cases p <;> cases q <;> try (first | rfl | exact absurd rfl h)
  rename_i i j
  have hij : i ≠ j := fun e => h (by rw [e])
  simp [get, hij]

end OutLines

theorem undriven_length (w : BusWidth) : (OutLines.undriven w).d.length = w.lines := by simp [OutLines.undriven]

theorem drive_ok_pinWrite (o : OutLines) (p : Line) (l : Bool) :
    TraceEntry.drive o ⟨.pinWrite p l, .ok⟩ = o.set p (.ofBool l) := rfl

theorem drive_err_pinWrite (o : OutLines) (p : Line) (l : Bool) (e : PinErr) :
    TraceEntry.drive o ⟨.pinWrite p l, .err e⟩ = o.set p .u := rfl

theorem drive_wait (o : OutLines) (d : Duration) (a : PinAnswer) : TraceEntry.drive o ⟨.wait d, a⟩ = o := by
  cases a <;> rfl

theorem drive_length (o : OutLines) (t : TraceEntry) : (t.drive o).d.length = o.d.length := by
  rcases t with ⟨op, a⟩
  cases op <;> cases a <;> simp [TraceEntry.drive]

theorem linesAfter_snoc (w : BusWidth) (tr : List TraceEntry) (t : TraceEntry) :
    linesAfter w (tr ++ [t]) = t.drive (linesAfter w tr) := by simp [linesAfter]

/-! ## Completion -/

namespace State

variable (s : State)

theorem endOp_busy (ph : Phase) : (s.endOp ph).busy = (match ph with | .initSeq => true | .opSeq => true | _ => false) := by
  cases ph <;> rfl

@[simp] theorem phaseAfterStop_idle (op : CurOp) : (s.endOp op.phaseAfterStop).busy = false := by cases op <;> rfl

@[simp] theorem complete_busy : s.complete.busy = false := rfl

theorem complete_eq : s.complete =
    { s with phase := .ready, curOp := .none, seq := [], upc := 0, wrLen := 0#12,
             respLog := s.respLog ++ [.ok s.okCount] } := rfl

theorem completeAtEnd_end (h : s.upc = s.seq.length) : s.completeAtEnd = s.complete := by simp [completeAtEnd, h]

theorem completeAtEnd_inside (h : s.upc ≠ s.seq.length) : s.completeAtEnd = s := by simp [completeAtEnd, h]

/-- Admission of an expansion that is not empty. -/
theorem startOp_cons (op : CurOp) (ph : Phase) (o : MicroOp) (ops : List MicroOp) :
    s.startOp op ph (o :: ops) = { s with curOp := op, phase := ph, seq := o :: ops, upc := 0 } := by
  simp [startOp, completeAtEnd]

/-- Admission of an empty expansion completes at once (R164). -/
theorem startOp_nil (op : CurOp) (ph : Phase) :
    s.startOp op ph [] = { s with curOp := op, phase := ph, seq := [], upc := 0 : State }.complete := by
  simp [startOp, completeAtEnd]

/-- Progress inside the sequence. -/
theorem advance_inside (h : s.upc + 1 ≠ s.seq.length) : s.advance = { s with upc := s.upc + 1 } := by
  simp [advance, completeAtEnd, h]

/-- Progress past the last micro-operation completes the operation. -/
theorem advance_last (h : s.upc + 1 = s.seq.length) : s.advance = { s with upc := s.upc + 1 : State }.complete := by
  simp [advance, completeAtEnd, h]

/-! ## The exception -/

theorem raisePeripheralError_eq (p : Line) (e : PinErr) : s.raisePeripheralError p e =
    { s with out := s.out.set p .u, phase := s.curOp.phaseAfterStop, curOp := .none, seq := [], upc := 0, wrLen := 0#12,
             respLog := s.respLog ++ [.err e] } := rfl

@[simp] theorem raisePeripheralError_busy (p : Line) (e : PinErr) : (s.raisePeripheralError p e).busy = false := by
  show (s.endOp s.curOp.phaseAfterStop).busy = false
  simp

/-! ## One micro-operation -/

/-- Everything one micro-operation can do: a PinWrite the pin set answers ok, one it answers with an error, a Wait, or,
past the end of the sequence, completion. -/
theorem microStep_cases :
    (∃ p l, s.nextOp = some (.pinWrite p l) ∧ s.pinAnswer = .ok ∧
      s.microStep = ((s.afterAnswer.record (.pinWrite p l) .ok).setLine p (.ofBool l)).advance) ∨
    (∃ p l e, s.nextOp = some (.pinWrite p l) ∧ s.pinAnswer = .err e ∧
      s.microStep = (s.afterAnswer.record (.pinWrite p l) (.err e)).raisePeripheralError p e) ∨
    (∃ d, s.nextOp = some (.wait d) ∧ s.microStep = (s.record (.wait d) .ok).advance) ∨
    (s.nextOp = none ∧ s.microStep = s.complete) := by
  rcases h : s.nextOp with _ | op
  · exact .inr (.inr (.inr ⟨rfl, by simp [microStep, h]⟩))
  · cases op with
    | pinWrite p l =>
      rcases ha : s.pinAnswer with _ | e
      · exact .inl ⟨p, l, rfl, rfl, by simp [microStep, h, performPinWrite, ha]⟩
      · exact .inr (.inl ⟨p, l, e, rfl, rfl, by simp [microStep, h, performPinWrite, ha]⟩)
    | wait d => exact .inr (.inr (.inl ⟨d, rfl, by simp [microStep, h, performWait]⟩))

/-- What a micro-operation does with an operation: it goes on with no response and every recorded outcome ok; or it ends
with OK and every recorded outcome ok; or it ends with the error that it recorded (R37, R194). -/
theorem microStep_ends (hb : s.busy = true) : ∃ more, s.microStep.trace = s.trace ++ more ∧
    ((s.microStep.busy = true ∧ s.microStep.respLog = s.respLog ∧ s.microStep.curOp = s.curOp ∧ ∀ t ∈ more, t.outcome = .ok) ∨
     (s.microStep.busy = false ∧ (∃ c, s.microStep.respLog = s.respLog ++ [.ok c]) ∧ ∀ t ∈ more, t.outcome = .ok) ∨
     (s.microStep.busy = false ∧ ∃ e, s.microStep.respLog = s.respLog ++ [.err e] ∧ ∃ t ∈ more, t.outcome = .err e)) := by
  have adv : ∀ (u : State) op, u.busy = true → u.respLog = s.respLog → u.curOp = s.curOp → u.trace = s.trace ++ [⟨op, .ok⟩] →
      ∃ more, u.advance.trace = s.trace ++ more ∧
        ((u.advance.busy = true ∧ u.advance.respLog = s.respLog ∧ u.advance.curOp = s.curOp ∧ ∀ t ∈ more, t.outcome = .ok) ∨
         (u.advance.busy = false ∧ (∃ c, u.advance.respLog = s.respLog ++ [.ok c]) ∧ ∀ t ∈ more, t.outcome = .ok) ∨
         (u.advance.busy = false ∧ ∃ e, u.advance.respLog = s.respLog ++ [.err e] ∧ ∃ t ∈ more, t.outcome = .err e)) := by
    intro u op hu hl ho ht
    by_cases he : u.upc + 1 = u.seq.length
    · rw [advance_last u he, complete_eq]
      exact ⟨_, ht, .inr (.inl ⟨rfl, ⟨_, congrArg (· ++ _) hl⟩, by simp⟩)⟩
    · rw [advance_inside u he]
      exact ⟨_, ht, .inl ⟨hu, hl, ho, by simp⟩⟩
  obtain ⟨p, l, -, -, e⟩ | ⟨p, l, r, -, -, e⟩ | ⟨d, -, e⟩ | ⟨-, e⟩ := s.microStep_cases <;> rw [e]
  · exact adv _ (.pinWrite p l) (by simp [hb]) (by simp) (by simp) (by simp)
  · exact ⟨[⟨.pinWrite p l, .err r⟩], by simp [raisePeripheralError_eq], .inr (.inr ⟨by simp, r, by
      simp [raisePeripheralError_eq], by simp⟩)⟩
  · exact adv _ (.wait d) (by simp [hb]) (by simp) (by simp) (by simp)
  · exact ⟨[], by simp [complete_eq], .inr (.inl ⟨rfl, ⟨_, by rw [complete_eq]⟩, by simp⟩)⟩

/-- A micro-operation neither reads nor writes the inbox. -/
theorem microStep_withInbox (box : List Arrival) :
    ({ s with inbox := box } : State).microStep = { s.microStep with inbox := box } := by
  have after : ({ s with inbox := box } : State).afterAnswer = { s.afterAnswer with inbox := box } := by
    unfold afterAnswer
    cases h : s.answers <;> simp
  have adv : ∀ u : State, ({ u with inbox := box } : State).advance = { u.advance with inbox := box } := by
    intro u
    by_cases e : u.upc + 1 = u.seq.length
    · rw [advance_last u e, advance_last { u with inbox := box } e]; rfl
    · rw [advance_inside u e, advance_inside { u with inbox := box } e]
  unfold microStep
  rw [show ({ s with inbox := box } : State).nextOp = s.nextOp from rfl]
  split
  · unfold performPinWrite
    rw [show ({ s with inbox := box } : State).pinAnswer = s.pinAnswer from rfl, after]
    split
    · exact adv ((s.afterAnswer.record (.pinWrite _ _) .ok).setLine _ _)
    · rfl
  · exact adv (s.record (.wait _) .ok)
  · rfl

/-- What an update may change: a relation that every part of a micro-operation keeps, and so every run of them. -/
structure Keeps (R : State → State → Prop) : Prop where
  refl : ∀ s, R s s
  trans : ∀ {s t u}, R s t → R t u → R s u
  setLine : ∀ s p l, R s (s.setLine p l)
  record : ∀ s op a, R s (s.record op a)
  afterAnswer : ∀ s, R s s.afterAnswer
  respond : ∀ s r, R s (s.respond r)
  endOp : ∀ s ph, R s (s.endOp ph)
  index : ∀ (s : State) n, R s { s with upc := n }

namespace Keeps

variable {R : State → State → Prop} (k : Keeps R)

include k

theorem complete : R s s.complete := k.trans (k.endOp s .ready) (k.respond _ _)

theorem completeAtEnd : R s s.completeAtEnd := by
  unfold State.completeAtEnd
  split
  · exact k.complete s
  · exact k.refl s

theorem advance : R s s.advance := k.trans (k.index s _) (k.completeAtEnd _)

theorem raise (p : Line) (e : PinErr) : R s (s.raisePeripheralError p e) :=
  k.trans (k.trans (k.setLine s p .u) (k.endOp _ _)) (k.respond _ _)

theorem microStep : R s s.microStep := by
  obtain ⟨p, l, -, -, h⟩ | ⟨p, l, e, -, -, h⟩ | ⟨d, -, h⟩ | ⟨-, h⟩ := s.microStep_cases <;> rw [h]
  · exact k.trans (k.trans (k.trans (k.afterAnswer s) (k.record _ _ _)) (k.setLine _ _ _)) (k.advance _)
  · exact k.trans (k.trans (k.afterAnswer s) (k.record _ _ _)) (k.raise _ _ _)
  · exact k.trans (k.record s _ _) (k.advance _)
  · exact k.complete s

theorem microSteps (n : Nat) : R s (s.microSteps n) := by
  induction n generalizing s with
  | zero => exact k.refl s
  | succ n ih =>
    unfold State.microSteps
    split
    · exact k.trans (k.microStep s) (ih _)
    · exact k.refl s

end Keeps

/-- The fields no micro-operation touches: width, configuration, `st.refused`, the inbox. -/
def SameSetting (s t : State) : Prop :=
  t.width = s.width ∧ t.cfgN = s.cfgN ∧ t.cfgId = s.cfgId ∧ t.cfgS = s.cfgS ∧ t.refused = s.refused ∧ t.inbox = s.inbox

theorem keeps_sameSetting : Keeps SameSetting where
  refl _ := ⟨rfl, rfl, rfl, rfl, rfl, rfl⟩
  trans := by
    rintro _ _ _ ⟨a, b, c, d, e, f⟩ ⟨a', b', c', d', e', f'⟩
    exact ⟨a'.trans a, b'.trans b, c'.trans c, d'.trans d, e'.trans e, f'.trans f⟩
  setLine _ _ _ := ⟨rfl, rfl, rfl, rfl, rfl, rfl⟩
  record _ _ _ := ⟨rfl, rfl, rfl, rfl, rfl, rfl⟩
  afterAnswer s := by simp [SameSetting]
  respond _ _ := ⟨rfl, rfl, rfl, rfl, rfl, rfl⟩
  endOp _ _ := ⟨rfl, rfl, rfl, rfl, rfl, rfl⟩
  index _ _ := ⟨rfl, rfl, rfl, rfl, rfl, rfl⟩

theorem microStep_sameSetting : s.SameSetting s.microStep := keeps_sameSetting.microStep s

theorem microSteps_sameSetting (n : Nat) : s.SameSetting (s.microSteps n) := keeps_sameSetting.microSteps s n

@[simp] theorem microSteps_zero : s.microSteps 0 = s := rfl

theorem microSteps_idle (n : Nat) (h : s.busy = false) : s.microSteps n = s := by
  cases n <;> simp [microSteps, h]

theorem microSteps_succ (n : Nat) (h : s.busy = true) : s.microSteps (n + 1) = s.microStep.microSteps n := by
  simp [microSteps, h]

/-- A property that every micro-operation of a busy state keeps holds after any number of them. -/
theorem microSteps_induct {P : State → Prop} (step : ∀ s : State, s.busy = true → P s → P s.microStep) (n : Nat)
    (h : P s) : P (s.microSteps n) := by
  induction n generalizing s with
  | zero => exact h
  | succ n ih =>
    cases hb : s.busy with
    | true => rw [microSteps_succ s n hb]; exact ih _ (step s hb h)
    | false => rw [microSteps_idle s _ hb]; exact h

end State

end Sys2Proof.Machine
end

