-- ==== Sys2Proof/Laws/Observe.lean ====
section
/-! SUPPORT. What the informative view of the controller does with each kind of event. -/

namespace Sys2Proof.Machine

namespace ControllerView

variable (pf : Platform) (w : BusWidth) (o : OutLines) (v : ControllerView)

@[simp] theorem lose_lost : v.lose.lost = true := rfl
@[simp] theorem lose_items : v.lose.items = v.items := rfl
@[simp] theorem lose_iface : v.lose.iface = .unknown := rfl

@[simp] theorem onLatch_lost (l : Latch) : (v.onLatch w l).lost = v.lost := rfl
@[simp] theorem onLatch_iface (l : Latch) : (v.onLatch w l).iface = (v.iface.onLatch w l).1 := rfl

theorem onLatch_items_lost (l : Latch) (h : v.lost = true) : (v.onLatch w l).items = v.items ++ [.unspecified] := by
  simp [onLatch, h]

theorem onLatch_items (l : Latch) (h : v.lost = false) :
    (v.onLatch w l).items = v.items ++ (v.iface.onLatch w l).2.toList := by
  simp [onLatch, h]

@[simp] theorem under_met (h : pf.dutiesMet = true) : v.under pf = v := by simp [under, h]

@[simp] theorem under_unmet (h : pf.dutiesMet = false) : v.under pf = v.lose := by simp [under, h]

@[simp] theorem under_items : (v.under pf).items = v.items := by
  unfold under
  split <;> rfl

/-- A lost controller stays lost on any platform. -/
theorem under_lost (h : v.lost = true) : (v.under pf).lost = true := by
  unfold under
  split
  · exact h
  · rfl

@[simp] theorem after_nil : v.after pf w o [] = v.under pf := rfl

@[simp] theorem after_performed (t : TraceEntry) (rest : List ControllerEvent) :
    v.after pf w o (.performed t :: rest) = ((v.under pf).onEntry w o t).after pf w (t.drive o) rest := rfl

@[simp] theorem after_aborted (rest : List ControllerEvent) :
    v.after pf w o (.aborted :: rest) = v.lose.after pf w o rest := rfl

@[simp] theorem after_initDone (rest : List ControllerEvent) :
    v.after pf w o (.initDone :: rest) = { v with lost := false : ControllerView }.after pf w o rest := rfl

/-- A failed pin write on any line loses the controller. -/
theorem onEntry_err (op : MicroOp) (e : PinErr) : (v.onEntry w o ⟨op, .err e⟩).lost = true := by
  simp only [onEntry, TraceEntry.isEdge]
  simp
  split <;> rfl

/-- A micro-operation that completes ok loses nothing and finds nothing. -/
theorem onEntry_ok (op : MicroOp) : (v.onEntry w o ⟨op, .ok⟩).lost = v.lost := by
  unfold onEntry
  split <;> rfl

/-- While the controller is lost, an entry keeps it lost and gives it nothing but unspecified items. -/
theorem onEntry_keepsLost (t : TraceEntry) (h : v.lost = true) :
    (v.onEntry w o t).lost = true ∧ ∃ k, (v.onEntry w o t).items = v.items ++ List.replicate k .unspecified := by
  unfold onEntry
  split
  · exact ⟨h, 1, onLatch_items_lost w v _ h⟩
  · split
    · exact ⟨h, 0, by simp⟩
    · split
      · exact ⟨rfl, 1, rfl⟩
      · exact ⟨rfl, 0, by simp⟩

/-- Whether the controller is lost after micro-operations, on a platform that meets its duties: it was, or one of them
failed. -/
theorem after_performed_lost (hp : pf.dutiesMet = true) (ts : List TraceEntry) (events : List ControllerEvent) : ∃ u o',
    v.after pf w o (ts.map .performed ++ events) = ControllerView.after pf w o' u events ∧
    (u.lost = true ↔ v.lost = true ∨ ∃ t ∈ ts, t.outcome ≠ .ok) := by
  induction ts generalizing v o with
  | nil => exact ⟨v, o, rfl, by simp⟩
  | cons t ts ih =>
    obtain ⟨u, o', h1, h2⟩ := ih (t.drive o) (v.onEntry w o t)
    refine ⟨u, o', by rw [List.map_cons, List.cons_append, after_performed, under_met pf v hp, h1], h2.trans ?_⟩
    obtain ⟨op, a⟩ := t
    cases a with
    | ok => rw [onEntry_ok]; simp
    | err e => simp [onEntry_err]

/-- On a platform that does not meet its duties the controller is lost after any events, and every item is unspecified. -/
theorem after_unmet (hp : pf.dutiesMet = false) (events : List ControllerEvent) :
    (v.after pf w o events).lost = true ∧
    ∃ k, (v.after pf w o events).items = v.items ++ List.replicate k .unspecified := by
  induction events generalizing v o with
  | nil => exact ⟨by simp [hp], 0, by simp⟩
  | cons ev rest ih =>
    cases ev with
    | performed t =>
      obtain ⟨-, k, hk⟩ := onEntry_keepsLost w o v.lose t rfl
      obtain ⟨hl, m, hm⟩ := ih (t.drive o) (v.lose.onEntry w o t)
      rw [after_performed, under_unmet pf v hp]
      exact ⟨hl, k + m, by rw [hm, hk, lose_items, List.append_assoc, List.replicate_append_replicate]⟩
    | aborted => exact ih o v.lose
    | initDone => exact ih o { v with lost := false }

end ControllerView

end Sys2Proof.Machine
end

