-- ==== Sys2Proof/Laws/PerInstr.lean ====
section
/-! SUPPORT. Family EncodingRow: the encoding of an instruction has the fixed bits of its row of 30_encoding.md section 3. -/

namespace Sys2Proof.Laws.EncodingRow

/-- The word or value of a packet, as a number. -/
def packetNumber : Packet → Nat
  | .request q _ => q.toNat
  | .busByte t => t.toNat
  | .busNibble t => t.toNat

/-- The encoding of `i` matches `i`'s row. -/
def Statement (i : Instr) : Prop := i.opcodeRow.covers (packetNumber (encode i)) = true

theorem init (n id s : Bool) : Statement (.init n id s) := by cases n <;> cases id <;> cases s <;> rfl

theorem setDisplayControl (d c b : Bool) : Statement (.setDisplayControl d c b) := by
  cases d <;> cases c <;> cases b <;> rfl

theorem seek (a : Address) : Statement (.seek a) := by revert a; unfold Statement; decide

theorem write (bytes : List Byte) : Statement (.write bytes) := by
  show OpcodeRow.covers ⟨0xF000, 0x4000⟩ (0b0100#4 ++ BitVec.ofNat 12 bytes.length).toNat = true
  rw [(requestRows_covers _).2.2.2.1, append_toNat, decide_eq_true_eq]
  have := (BitVec.ofNat 12 bytes.length).isLt
  simp only [BitVec.toNat_ofNat] at *
  omega

theorem abort : Statement .abort := by unfold Statement; decide

theorem busClearDisplay : Statement .busClearDisplay := by unfold Statement; decide

theorem busEntryModeSet (id s : Bool) : Statement (.busEntryModeSet id s) := by cases id <;> cases s <;> rfl

theorem busDisplayControl (d c b : Bool) : Statement (.busDisplayControl d c b) := by
  cases d <;> cases c <;> cases b <;> rfl

theorem busFunctionSet (dl n : Bool) : Statement (.busFunctionSet dl n) := by cases dl <;> cases n <;> rfl

theorem busSetDdramAddress (a : Address) : Statement (.busSetDdramAddress a) := by revert a; unfold Statement; decide

theorem busWriteData (v : Byte) : Statement (.busWriteData v) := by revert v; unfold Statement; decide

theorem busWakeNibble : Statement .busWakeNibble := by unfold Statement; decide

theorem busSwitchNibble : Statement .busSwitchNibble := by unfold Statement; decide

end Sys2Proof.Laws.EncodingRow
end

