-- ==== Sys2Proof/Laws/Step.lean ====
section
/-! SUPPORT. What an instruction and a step can do, said once, and the induction over it. -/

namespace Sys2Proof.Machine

/-- A due packet leaves the inbox, and nothing else changes (R73). -/
theorem takeDue_some {s t : State} {p : Packet} (h : s.takeDue = some (p, t)) :
    ∃ a rest, s.inbox = a :: rest ∧ a.packet = p ∧ a.due s.busy = true ∧ t = { s with inbox := rest } := by
  unfold State.takeDue at h
  split at h
  · rename_i a rest hi
    split at h
    · rename_i hd
      simp only [Option.some.injEq, Prod.mk.injEq] at h
      exact ⟨a, rest, hi, h.1, hd, h.2.symm⟩
    · cases h
  · cases h

/-- What is taken from the inbox is the packet that is next and due, and the packet only. -/
theorem takeDue_eq_some_iff {s t : State} {p : Packet} :
    s.takeDue = some (p, t) ↔ ∃ rest, s.NextDue p rest ∧ t = { s with inbox := rest } := by
  constructor
  · intro h
    obtain ⟨⟨pace, p'⟩, rest, hi, rfl, hd, rfl⟩ := takeDue_some h
    refine ⟨rest, ⟨pace, hi, ?_⟩, rfl⟩
    cases pace with
    | whenIdle => exact .inr ⟨rfl, by simpa [Arrival.due] using hd⟩
    | afterTurns n => cases n with
      | zero => exact .inl rfl
      | succ n => cases hd
  · rintro ⟨rest, ⟨pace, hi, rfl | ⟨rfl, hb⟩⟩, rfl⟩
    · simp [State.takeDue, hi, Arrival.due]
    · simp [State.takeDue, hi, Arrival.due, hb]

theorem takeDue_eq_none_iff {s : State} : s.takeDue = none ↔ ¬ ∃ p rest, s.NextDue p rest := by
  constructor
  · rintro h ⟨p, rest, hd⟩
    rw [takeDue_eq_some_iff.2 ⟨rest, hd, rfl⟩] at h
    cases h
  · intro h
    cases ht : s.takeDue with
    | none => rfl
    | some x =>
      obtain ⟨rest, hd, -⟩ := takeDue_eq_some_iff.1 (show s.takeDue = some (x.1, x.2) from ht)
      exact absurd ⟨_, rest, hd⟩ h

/-- The clock of the inbox touches the inbox only. -/
theorem tickInbox_eq (s : State) : ∃ box, s.tickInbox = { s with inbox := box } := by
  unfold State.tickInbox
  split
  · exact ⟨_, rfl⟩
  · exact ⟨s.inbox, rfl⟩

theorem tickInbox_empty {s : State} (h : s.inbox = []) : s.tickInbox = s := by simp [State.tickInbox, h]

theorem takeDue_empty {s : State} (h : s.inbox = []) : s.takeDue = none := by simp [State.takeDue, h]

/-- A transmission that was sent is some number of micro-operations. -/
theorem transmit_next {s t : State} {forms : List (List MicroOp)} (h : s.transmit forms = .next t) :
    ∃ ops ∈ forms, s.isDue ops = true ∧ t = s.microSteps ops.length := by
  unfold State.transmit at h
  split at h
  · rename_i ops hf
    simp only [Host.Outcome.next.injEq] at h
    exact ⟨ops, List.mem_of_find?_eq_some hf, List.find?_some hf, h.symm⟩
  · cases h

/-- Everything an instruction that answers a next state can do. -/
inductive ExecCase (s t : State) : Instr → Prop where
  | refused (i : Instr) (h : t = s.markRefused) : ExecCase s t i
  | init (n id sh : Bool) (adm : s.busy = false)
      (h : t = ({ s with cfgN := n, cfgId := id, cfgS := sh : State }.startOp .init .initSeq (initSeq s.width n id sh))) :
      ExecCase s t (.init n id sh)
  | display (d c b : Bool) (adm : s.phase = .ready)
      (h : t = s.startOp .setDisplayControl .opSeq (displayControlSeq s.width d c b)) : ExecCase s t (.setDisplayControl d c b)
  | seek (a : Address) (adm : s.phase = .ready) (h : t = s.startOp .seek .opSeq (seekSeq s.width a)) : ExecCase s t (.seek a)
  | write (bytes : List Byte) (len : bytes.length ≤ maxWriteLen) (adm : s.phase = .ready)
      (h : t = ({ s with wrLen := BitVec.ofNat 12 bytes.length : State }.startOp .write .opSeq (writeSeq s.width bytes))) :
      ExecCase s t (.write bytes)
  | abort (sus : s.suspended = true) (h : t = s.endOp s.curOp.phaseAfterStop) : ExecCase s t .abort
  | abortIdle (h : t = s) : ExecCase s t .abort
  | transfer (i : Instr) (ops : List MicroOp) (due : s.isDue ops = true) (h : t = s.microSteps ops.length) : ExecCase s t i

theorem command_cases (s : State) (op : CurOp) (len : Count) (ops : List MicroOp) :
    (s.phase = .ready ∧ s.command op len ops = { s with wrLen := len : State }.startOp op .opSeq ops) ∨
    (s.phase ≠ .ready ∧ s.command op len ops = s.markRefused) := by
  by_cases h : s.phase = .ready <;> simp [State.command, State.admitsCommand_eq, h]

theorem exec_cases {i : Instr} {s t : State} (h : exec i s = .next t) : ExecCase s t i := by
  cases i with
  | init n id sh =>
    simp only [exec, execInit, State.admitsInit_eq] at h
    cases hb : s.busy
    · simp only [hb, Bool.not_false, if_true, Host.Outcome.next.injEq] at h
      exact .init n id sh hb h.symm
    · simp only [hb, Bool.not_true, Bool.false_eq_true, if_false, Host.Outcome.next.injEq] at h
      exact .refused _ h.symm
  | setDisplayControl d c b =>
    simp only [exec, execSetDisplayControl, Host.Outcome.next.injEq] at h
    obtain ⟨hr, hc⟩ | ⟨-, hc⟩ := command_cases s .setDisplayControl s.wrLen (displayControlSeq s.width d c b)
    · exact .display d c b hr (h.symm.trans hc)
    · exact .refused _ (h.symm.trans hc)
  | seek a =>
    simp only [exec, execSeek, Host.Outcome.next.injEq] at h
    obtain ⟨hr, hc⟩ | ⟨-, hc⟩ := command_cases s .seek s.wrLen (seekSeq s.width a)
    · exact .seek a hr (h.symm.trans hc)
    · exact .refused _ (h.symm.trans hc)
  | write bytes =>
    simp only [exec, execWrite] at h
    split at h
    · rename_i hl
      simp only [Host.Outcome.next.injEq] at h
      obtain ⟨hr, hc⟩ | ⟨-, hc⟩ := command_cases s .write (BitVec.ofNat 12 bytes.length) (writeSeq s.width bytes)
      · exact .write bytes hl hr (h.symm.trans hc)
      · exact .refused _ (h.symm.trans hc)
    · cases h
  | abort =>
    simp only [exec, execAbort] at h
    split at h
    · rename_i hs
      simp only [Host.Outcome.next.injEq] at h
      exact .abort hs h.symm
    · simp only [Host.Outcome.next.injEq] at h
      exact .abortIdle h.symm
  | busClearDisplay => obtain ⟨ops, -, hd, ht⟩ := transmit_next h; exact .transfer _ ops hd ht
  | busEntryModeSet id sh => obtain ⟨ops, -, hd, ht⟩ := transmit_next h; exact .transfer _ ops hd ht
  | busDisplayControl d c b => obtain ⟨ops, -, hd, ht⟩ := transmit_next h; exact .transfer _ ops hd ht
  | busFunctionSet dl n => obtain ⟨ops, -, hd, ht⟩ := transmit_next h; exact .transfer _ ops hd ht
  | busSetDdramAddress a => obtain ⟨ops, -, hd, ht⟩ := transmit_next h; exact .transfer _ ops hd ht
  | busWriteData v => obtain ⟨ops, -, hd, ht⟩ := transmit_next h; exact .transfer _ ops hd ht
  | busWakeNibble => obtain ⟨ops, -, hd, ht⟩ := transmit_next h; exact .transfer _ ops hd ht
  | busSwitchNibble => obtain ⟨ops, -, hd, ht⟩ := transmit_next h; exact .transfer _ ops hd ht

/-- Everything a step that answers a next state can do. -/
theorem step_cases {s t : State} (h : step s = .next t) :
    s.refused = false ∧
    ((∃ p u i, s.takeDue = some (p, u) ∧ decode p = .ok i ∧ exec i u = .next t) ∨
     (∃ p u, s.takeDue = some (p, u) ∧ t = u.markRefused) ∨
     (s.takeDue = none ∧ s.busy = true ∧ t = s.tickInbox.microStep) ∨
     (s.takeDue = none ∧ s.busy = false ∧ t = s.tickInbox)) := by
  unfold step at h
  split at h
  · cases h
  rename_i hr
  refine ⟨by simpa using hr, ?_⟩
  split at h
  · rename_i p u hd
    split at h
    · rename_i i hi
      exact .inl ⟨p, u, i, hd, hi, h⟩
    · unfold State.rejectPacket at h
      split at h <;> try cases h
      exact .inr (.inl ⟨_, u, hd, rfl⟩)
  · rename_i hd
    have hb : s.tickInbox.busy = s.busy := by obtain ⟨box, hx⟩ := tickInbox_eq s; rw [hx]; rfl
    unfold State.blockTurn at h
    cases hs : s.busy <;> simp only [hb, hs, if_true, Bool.false_eq_true, if_false] at h
    · simp only [Host.Outcome.next.injEq] at h
      exact .inr (.inr (.inr ⟨hd, rfl, h.symm⟩))
    · split at h
      · simp only [Host.Outcome.next.injEq] at h
        exact .inr (.inr (.inl ⟨hd, rfl, h.symm⟩))
      · cases h

/-- A property holds after every step from a state that has it, if each of the things a step is made of keeps it. -/
theorem step_induct {P : State → Prop}
    (inbox : ∀ (s : State) box, P s → P { s with inbox := box })
    (mark : ∀ s : State, P s → P s.markRefused)
    (init : ∀ (s : State) n id sh, s.busy = false → P s →
      P ({ s with cfgN := n, cfgId := id, cfgS := sh : State }.startOp .init .initSeq (initSeq s.width n id sh)))
    (display : ∀ (s : State) d c b, s.phase = .ready → P s →
      P (s.startOp .setDisplayControl .opSeq (displayControlSeq s.width d c b)))
    (seek : ∀ (s : State) a, s.phase = .ready → P s → P (s.startOp .seek .opSeq (seekSeq s.width a)))
    (write : ∀ (s : State) bytes, bytes.length ≤ maxWriteLen → s.phase = .ready → P s →
      P ({ s with wrLen := BitVec.ofNat 12 bytes.length : State }.startOp .write .opSeq (writeSeq s.width bytes)))
    (abort : ∀ s : State, s.suspended = true → P s → P (s.endOp s.curOp.phaseAfterStop))
    (micro : ∀ s : State, s.busy = true → P s → P s.microStep)
    {s t : State} (hs : P s) (h : step s = .next t) : P t := by
  obtain ⟨-, ⟨p, u, i, hd, -, he⟩ | ⟨p, u, hd, rfl⟩ | ⟨-, hb, rfl⟩ | ⟨-, -, rfl⟩⟩ := step_cases h
  · obtain ⟨_, rest, -, -, -, rfl⟩ := takeDue_some hd
    have hu := inbox s rest hs
    cases exec_cases he with
    | refused _ e => rw [e]; exact mark _ hu
    | init n id sh a e => rw [e]; exact init _ n id sh a hu
    | display d c b a e => rw [e]; exact display _ d c b a hu
    | seek x a e => rw [e]; exact seek _ x a hu
    | write bs l a e => rw [e]; exact write _ bs l a hu
    | abort x e => rw [e]; exact abort _ x hu
    | abortIdle e => rw [e]; exact hu
    | transfer _ ops _ e => rw [e]; exact State.microSteps_induct _ micro _ hu
  · obtain ⟨_, rest, -, -, -, rfl⟩ := takeDue_some hd
    exact mark _ (inbox s rest hs)
  · obtain ⟨box, hx⟩ := tickInbox_eq s
    rw [hx]
    exact micro _ hb (inbox s box hs)
  · obtain ⟨box, hx⟩ := tickInbox_eq s
    rw [hx]
    exact inbox s box hs

end Sys2Proof.Machine
end

