-- ==== Sys2Proof/Tests/Slice0.lean ====
section
/-! SUPPORT. Tests with values of spec/95_test_vectors.md (L1, L2), and the witnesses for the statements' hypotheses. -/

namespace Sys2Proof.Tests

open Sys2Proof Sys2Proof.Machine

/-! ## Well-formedness -/

/-- The one check refuses a WRITE of 4096 bytes (R101: an error); 4095 pass (L2-1). -/
theorem test_wellFormed_writeTooLong (v : Byte) : (Instr.write (List.replicate 4096 v)).wellFormed = false := by
  simp only [Instr.wellFormed, List.length_replicate, maxWriteLen]; decide

theorem test_wellFormed_writeLongest (v : Byte) : (Instr.write (List.replicate 4095 v)).wellFormed = true := by
  simp only [Instr.wellFormed, List.length_replicate, maxWriteLen]; decide

/-! ## Decoding: words written out from the patterns of 30_encoding.md R82 to R98 and section 3 -/

theorem test_decode_init : decode (.request 0b0001000000000110#16 []) = .ok (.init true true false) ∧
    decode (.request 0b0001000000000001#16 []) = .ok (.init false false true) := by decide +kernel

theorem test_decode_setDisplayControl :
    decode (.request 0b0010000000000100#16 []) = .ok (.setDisplayControl true false false) ∧
    decode (.request 0b0010000000000011#16 []) = .ok (.setDisplayControl false true true) := by decide +kernel

theorem test_decode_seek : decode (.request 0b0011000000101000#16 []) = .ok (.seek 40#7) ∧
    decode (.request 0b0011000001111111#16 []) = .ok (.seek 127#7) := by decide +kernel

theorem test_decode_write : decode (.request 0b0100000000000010#16 [0x41#8, 0x42#8]) = .ok (.write [0x41#8, 0x42#8]) ∧
    decode (.request 0b0100000000000000#16 []) = .ok (.write []) := by decide +kernel

theorem test_decode_abort : decode (.request 0b0101000000000000#16 []) = .ok .abort := by decide +kernel

theorem test_decode_busClearDisplay : decode (.busByte 0b000000001#9) = .ok .busClearDisplay := by decide +kernel

theorem test_decode_busEntryModeSet : decode (.busByte 0b000000110#9) = .ok (.busEntryModeSet true false) ∧
    decode (.busByte 0b000000101#9) = .ok (.busEntryModeSet false true) := by decide +kernel

theorem test_decode_busDisplayControl : decode (.busByte 0b000001100#9) = .ok (.busDisplayControl true false false) ∧
    decode (.busByte 0b000001011#9) = .ok (.busDisplayControl false true true) := by decide +kernel

theorem test_decode_busFunctionSet : decode (.busByte 0b000101000#9) = .ok (.busFunctionSet false true) ∧
    decode (.busByte 0b000110000#9) = .ok (.busFunctionSet true false) := by decide +kernel

theorem test_decode_busSetDdramAddress : decode (.busByte 0b010101000#9) = .ok (.busSetDdramAddress 40#7) ∧
    decode (.busByte 0b011111111#9) = .ok (.busSetDdramAddress 127#7) := by decide +kernel

theorem test_decode_busWriteData : decode (.busByte 0b101000001#9) = .ok (.busWriteData 0x41#8) ∧
    decode (.busByte 0b100000000#9) = .ok (.busWriteData 0x00#8) := by decide +kernel

theorem test_decode_busNibbles : decode (.busNibble 0b00011#5) = .ok .busWakeNibble ∧
    decode (.busNibble 0b00010#5) = .ok .busSwitchNibble := by decide +kernel

/-- The refused words of L2-1. -/
theorem test_decode_refusedWords :
    decode (.request 0x0000#16 []) = .error .reservedOpcode ∧ decode (.request 0x6000#16 []) = .error .reservedOpcode ∧
    decode (.request 0x7FFF#16 []) = .error .reservedOpcode ∧ decode (.request 0xF123#16 []) = .error .reservedOpcode ∧
    decode (.request 0x1008#16 []) = .error .reservedBits ∧ decode (.request 0x1800#16 []) = .error .reservedBits ∧
    decode (.request 0x2010#16 []) = .error .reservedBits ∧ decode (.request 0x3080#16 []) = .error .reservedBits ∧
    decode (.request 0x5001#16 []) = .error .reservedBits := by decide +kernel

/-- Log 6. -/
theorem test_decode_payloadLength :
    decode (.request 0x4002#16 [0x41#8]) = .error .payloadLength ∧
    decode (.request 0x3028#16 [0x41#8]) = .error .payloadLength := by decide +kernel

/-- Values that are no row of section 3 (R99): DL set with a low bit, the empty byte, return home, a cursor shift, set CGRAM
address, a nibble with RS = 1. -/
theorem test_decode_noRow : ([0x021, 0x000, 0x002, 0x010, 0x040].map fun t => decode (.busByte (BitVec.ofNat 9 t))) =
    List.replicate 5 (.error .noSuchTransfer) ∧ decode (.busNibble 0b10011#5) = .error .noSuchTransfer := by decide +kernel

theorem test_encode_samples : encode (.init true true true) = .request 0x1007#16 [] ∧
    encode (.seek 0x40#7) = .request 0x3040#16 [] ∧ encode (.write [0xFF#8]) = .request 0x4001#16 [0xFF#8] ∧
    encode (.busSetDdramAddress 0x67#7) = .busByte 0x0E7#9 := by decide +kernel

/-- A WRITE's payload stands above its word, the first byte lowest. -/
theorem test_decodeTableWord : decodeTableWord 16 0x42414002 = some (.write [0x41#8, 0x42#8]) ∧
    decodeTableWord 16 0x3028 = some (.seek 40#7) ∧ decodeTableWord 16 0x0A8 = some (.busSetDdramAddress 40#7) ∧
    decodeTableWord 8 0x03 = some .busWakeNibble ∧ decodeTableWord 16 0x6000 = none := by decide +kernel

/-! ## States -/

/-- A READY block. -/
def ready (w : BusWidth) : State := { State.create w with phase := .ready }

/-- A block inside an operation, at an index of its sequence, with the pin set's answers listed. -/
def inside (w : BusWidth) (op : CurOp) (ops : List MicroOp) (upc : Nat) (answers : List PinAnswer) : State :=
  { State.create w with
    phase := if op = .init then .initSeq else .opSeq, curOp := op, seq := ops, upc := upc, answers := answers }

/-- A platform with the given durations, at 5 V and 270 kHz, that meets its other duties. -/
def platformWith (ns : Duration → Nat) : Platform := ⟨.fiveVolt, 270, ns, 40, true, true⟩

/-- The same with every duration at its bound of R225. -/
def goodPlatform : Platform := platformWith (lowerBoundNs .fiveVolt)

/-- The same with T_CLEAR one nanosecond short of 1.52 ms. -/
def shortClear : Platform := platformWith fun d => if d = .clear then 1519999 else lowerBoundNs .fiveVolt d

/-- An error value of the pins: every platform has this one (log 2). -/
def anError : PinErr := ⟨0, rfl⟩

/-- Such a block's state coheres when the index is inside the sequence and the bus has the lines. -/
theorem inside_coherent (w : BusWidth) (op : CurOp) (ops : List MicroOp) (upc : Nat) (answers : List PinAnswer)
    (h : op ≠ .none) (hu : upc < ops.length) (hf : ∀ x ∈ ops, x.fits w = true) :
    (inside w op ops upc answers).Coherent := by
  refine ⟨?_, ?_, ?_, fun _ => hu, ?_, ?_, fun _ => rfl, hf⟩
  · exact undriven_length w
  all_goals cases op <;> simp_all [inside, State.busy]

/-- Every operation's sequence fits the bus it was built for. -/
theorem inside_init (w : BusWidth) (n id sh : Bool) (upc : Nat) (answers : List PinAnswer)
    (h : upc < (initSeq w n id sh).length) : (inside w .init (initSeq w n id sh) upc answers).Coherent :=
  inside_coherent _ _ _ _ _ (by decide +kernel) h (initSeq_fits w n id sh)

theorem inside_byte (w : BusWidth) (op : CurOp) (rs : Bool) (v : Byte) (d : Duration) (upc : Nat) (answers : List PinAnswer)
    (hop : op ≠ .none) (h : upc < (sendByte w rs v d).length) : (inside w op (sendByte w rs v d) upc answers).Coherent :=
  inside_coherent _ _ _ _ _ hop h (sendByte_fits w rs v d)

/-! ## One step of each instruction -/

theorem test_init_fromReset : ∃ t, exec (.init true true false) State.reset = .next t ∧ t.phase = .initSeq ∧ t.cfgN = true ∧
    t.cfgId = true ∧ t.cfgS = false ∧ t.seq.length = 105 ∧ t.upc = 0 ∧ t.refused = false := ⟨_, rfl, by decide +kernel⟩

theorem test_init_refusedInside : ∃ t, exec (.init true true false) (inside .full .init (initSeq .full false false false) 3 []) =
    .next t ∧ t.refused = true ∧ t.cfgN = false := ⟨_, rfl, by decide +kernel⟩

theorem test_setDisplayControl : ∃ t, exec (.setDisplayControl true true true) (ready .full) = .next t ∧ t.phase = .opSeq ∧
    latchedFrom t.out (allOk t.seq) = [⟨.zero, levelsOf 0x0F#8⟩] := ⟨_, rfl, by decide +kernel⟩

theorem test_seek : ∃ t, exec (.seek 40#7) (ready .half) = .next t ∧ t.curOp = .seek ∧
    latchedFrom t.out (allOk t.seq) = [⟨.zero, levelsOf 0xA#4⟩, ⟨.zero, levelsOf 0x8#4⟩] := ⟨_, rfl, by decide +kernel⟩

theorem test_seek_refusedAfterReset : ∃ t, exec (.seek 0#7) State.reset = .next t ∧ t.refused = true ∧ t.phase = .uninit :=
  ⟨_, rfl, by decide +kernel⟩

theorem test_write : ∃ t, exec (.write [0x41#8, 0x42#8]) (ready .full) = .next t ∧ t.wrLen = 2#12 ∧ t.seq.length = 26 ∧
    latchedFrom t.out (allOk t.seq) = [⟨.one, levelsOf 0x41#8⟩, ⟨.one, levelsOf 0x42#8⟩] := ⟨_, rfl, by decide +kernel⟩

theorem test_write_empty : ∃ t, exec (.write []) (ready .half) = .next t ∧ t.phase = .ready ∧ t.respLog = [.ok 0#12] ∧
    t.trace = [] := ⟨_, rfl, by decide +kernel⟩

theorem test_abort_inPowerOnWait : ∃ t, exec .abort (inside .half .init (initSeq .half true true false) 0 []) = .next t ∧
    t.phase = .uninit ∧ t.seq = [] ∧ t.respLog = [] ∧ t.out = .undriven .half := ⟨_, rfl, by decide +kernel⟩

theorem test_abort_inPinWrite : ∃ t, exec .abort (inside .full .seek (seekSeq .full 5#7) 11 []) = .next t ∧ t.phase = .opSeq ∧
    t.upc = 11 := ⟨_, rfl, by decide +kernel⟩

/-- A clear display in the middle of a HALF INIT: indices 71 to 87 (L2-4). -/
theorem test_busClearDisplay : ∃ t,
    exec .busClearDisplay (inside .half .init (initSeq .half true true false) 71 (List.replicate 13 .ok)) = .next t ∧
    t.upc = 88 ∧ t.answers = [] ∧ latchedFrom (.undriven .half) t.trace = transfersOf .half false 0x01#8 := ⟨_, rfl, by decide +kernel⟩

/-- An entry mode set that ends its INIT: the response is OK(0) and the lines hold 0x06 (L2-4). -/
theorem test_busEntryModeSet : ∃ t,
    exec (.busEntryModeSet true false) (inside .full .init (initSeq .full true true false) 79 (List.replicate 11 .ok)) = .next t ∧
    t.phase = .ready ∧ t.respLog = [.ok 0#12] ∧ t.out = ⟨.zero, .zero, levelsOf 0x06#8⟩ := ⟨_, rfl, by decide +kernel⟩

theorem test_busDisplayControl : ∃ t,
    exec (.busDisplayControl true false false)
      (inside .half .setDisplayControl (displayControlSeq .half true false false) 0 (List.replicate 13 .ok)) = .next t ∧
    t.phase = .ready ∧ t.out = ⟨.zero, .zero, levelsOf 0xC#4⟩ := ⟨_, rfl, by decide +kernel⟩

/-- The second wake-up of a FULL INIT, indices 14 to 26 (L2-4). -/
theorem test_busFunctionSet : ∃ t,
    exec (.busFunctionSet true false) (inside .full .init (initSeq .full true true false) 14 (List.replicate 11 .ok)) = .next t ∧
    t.upc = 27 ∧ t.trace.getLast? = some ⟨.wait .wake2, .ok⟩ := ⟨_, rfl, by decide +kernel⟩

theorem test_busSetDdramAddress : ∃ t,
    exec (.busSetDdramAddress 0x40#7) (inside .full .seek (seekSeq .full 0x40#7) 0 (List.replicate 11 .ok)) = .next t ∧
    t.respLog = [.ok 0#12] ∧ latchedFrom (.undriven .full) t.trace = [⟨.zero, levelsOf 0xC0#8⟩] := ⟨_, rfl, by decide +kernel⟩

theorem test_busWriteData : ∃ t,
    exec (.busWriteData 0xFF#8) { inside .half .write (writeSeq .half [0xFF#8]) 0 (List.replicate 13 .ok) with wrLen := 1#12 } =
      .next t ∧
    t.respLog = [.ok 1#12] ∧ t.out = ⟨.zero, .one, levelsOf 0xF#4⟩ := ⟨_, rfl, by decide +kernel⟩

theorem test_busWakeNibble : ∃ t,
    exec .busWakeNibble (inside .half .init (initSeq .half false false true) 10 (List.replicate 7 .ok)) = .next t ∧ t.upc = 19 ∧
    t.trace.getLast? = some ⟨.wait .wake2, .ok⟩ := ⟨_, rfl, by decide +kernel⟩

/-- L2-7, program P4: the error at index 17 of a HALF INIT (`PinWrite(E,0)` of wake-up 2): 8 of this nibble's
micro-operations performed, E = U, UNINIT, ERR. -/
theorem test_busWakeNibble_fails : ∃ t,
    exec .busWakeNibble (inside .half .init (initSeq .half false false true) 10 (List.replicate 6 .ok ++ [.err anError])) = .next t ∧
    t.phase = .uninit ∧ t.respLog = [.err anError] ∧ t.out = ⟨.u, .zero, levelsOf 0x3#4⟩ ∧ t.trace.length = 8 := ⟨_, rfl, by decide +kernel⟩

theorem test_busSwitchNibble : ∃ t,
    exec .busSwitchNibble (inside .half .init (initSeq .half true true false) 28 (List.replicate 7 .ok)) = .next t ∧
    t.upc = 37 ∧ latchedFrom (.undriven .half) t.trace = [⟨.zero, levelsOf 0x2#4⟩] := ⟨_, rfl, by decide +kernel⟩

/-! ## The assembler (R101, R102) -/

theorem test_assemble_init : assembleLine "INIT 2LINE, INC, NOSHIFT ; 0x1006".toList = .ok [.init true true false] := by decide +kernel

theorem test_assemble_printat : assembleLine "PRINTAT 0x40, \"AB\", 255".toList =
    .ok [.seek 64#7, .write [0x41#8, 0x42#8, 0xFF#8]] := by decide +kernel

theorem test_assemble_seekOutOfRange : assembleLine "SEEK 128".toList = .error .outOfRange := by decide +kernel

/-! ## Witnesses: a concrete input that meets the hypotheses of each statement that has any -/

/-- DecodeOfEncode, at the empty WRITE; `test_wellFormed_writeLongest` is the other end. -/
theorem witness_DecodeOfEncode : (Instr.write []).wellFormed = true := by decide +kernel

theorem witness_EncodeOfDecode : decode (.busByte 0x0FF#9) = .ok (.busSetDdramAddress 127#7) := by decide +kernel

/-- ReservedOpcodeIsRefused at 0x0, 0x6 and 0xF, with the least and greatest words of those opcodes. -/
theorem witness_ReservedOpcodeIsRefused :
    (0x0FFF#16).extractLsb' 12 4 = 0x0#4 ∧ 0x6#4 ≤ (0x6000#16).extractLsb' 12 4 ∧ 0x6#4 ≤ (0xFFFF#16).extractLsb' 12 4 ∧
    (State.reset.placePacket (.request 0x6000#16 [])).refused = false ∧
    (State.reset.placePacket (.request 0x6000#16 [])).NextDue (.request 0x6000#16 []) [] ∧
    ({ State.reset with inbox := [⟨.whenIdle, .request 0xFFFF#16 [1#8]⟩] } : State).NextDue (.request 0xFFFF#16 [1#8]) [] :=
  ⟨by decide +kernel, by decide +kernel, by decide +kernel, rfl, ⟨_, rfl, .inl rfl⟩, ⟨_, rfl, .inr ⟨rfl, rfl⟩⟩⟩

/-- ReservedBitsAreRefused: one word for each clause, with the lowest reserved bit and with the highest. -/
theorem witness_ReservedBitsAreRefused :
    (0x1008#16).extractLsb' 12 4 = 0x1#4 ∧ (0x1008#16).extractLsb' 3 9 ≠ 0#9 ∧ (0x1800#16).extractLsb' 3 9 ≠ 0#9 ∧
    (0x2008#16).extractLsb' 12 4 = 0x2#4 ∧ (0x2008#16).extractLsb' 3 9 ≠ 0#9 ∧ (0x2800#16).extractLsb' 3 9 ≠ 0#9 ∧
    (0x3080#16).extractLsb' 12 4 = 0x3#4 ∧ (0x3080#16).extractLsb' 7 5 ≠ 0#5 ∧ (0x3800#16).extractLsb' 7 5 ≠ 0#5 ∧
    (0x5001#16).extractLsb' 12 4 = 0x5#4 ∧ (0x5001#16).extractLsb' 0 12 ≠ 0#12 ∧ (0x5800#16).extractLsb' 0 12 ≠ 0#12 ∧
    ((ready .full).placePacket (.request 0x3080#16 [])).inbox = [⟨.afterTurns 0, .request 0x3080#16 []⟩] ∧
    ((ready .full).placePacket (.request 0x3080#16 [])).refused = false := by decide +kernel

/-- ReservedBitsAreRefused: a word that is due inside an operation. -/
theorem witness_ReservedBitsAreDue :
    ((inside .half .seek (seekSeq .half 1#7) 3 []).placePacket (.request 0x5001#16 [])).NextDue (.request 0x5001#16 []) [] ∧
    ((inside .half .seek (seekSeq .half 1#7) 3 []).placePacket (.request 0x5001#16 [])).refused = false :=
  ⟨⟨_, rfl, .inl rfl⟩, rfl⟩

/-- PayloadMismatchIsRefused: a WRITE one byte short and one byte long, and a SEEK with a byte, at an idle block. -/
theorem witness_PayloadMismatchIsRefused :
    [0x41#8].length ≠ announcedLength 0x4002#16 ∧ [0x41#8].length ≠ announcedLength 0x4000#16 ∧
    [0x41#8].length ≠ announcedLength 0x3028#16 ∧
    ({ ready .half with inbox := [⟨.whenIdle, .request 0x4002#16 [0x41#8]⟩] } : State).NextDue (.request 0x4002#16 [0x41#8]) [] ∧
    ({ ready .half with inbox := [⟨.whenIdle, .request 0x4002#16 [0x41#8]⟩] } : State).refused = false :=
  ⟨by decide +kernel, by decide +kernel, by decide +kernel, ⟨_, rfl, .inr ⟨rfl, rfl⟩⟩, rfl⟩

/-- DecodeAgreesWithOpcodeMap: a packet of no row, one of a row, and one of a row with another payload. -/
theorem witness_DecodeAgreesWithOpcodeMap :
    (Packet.busByte 0x040#9).rows = [] ∧ (Packet.request 0x4001#16 [0xFF#8]).rows = [⟨0xF000, 0x4000⟩] ∧
    payloadIsAnnounced (.request 0x4001#16 [0xFF#8]) ∧ ¬ payloadIsAnnounced (.request 0x4001#16 []) ∧
    ¬ payloadIsAnnounced (.request 0x5000#16 [0#8]) :=
  ⟨by decide +kernel, by decide +kernel, by unfold payloadIsAnnounced; decide +kernel,
   by unfold payloadIsAnnounced; decide +kernel, by unfold payloadIsAnnounced; decide +kernel⟩

/-- TransmissionLatchesItsTransfers, WriteLatchesItsPayload, CutWriteLatchesWholeBytesBefore, InitLatchesItsTransfers and
InitResynchronizesTheController: lines of either width, E high among them. -/
theorem witness_linesOfTheBus : (⟨.one, .u, List.replicate 4 .zero⟩ : OutLines).d.length = BusWidth.half.lines ∧
    (⟨.one, .one, List.replicate 8 .u⟩ : OutLines).d.length = BusWidth.full.lines := by decide +kernel

/-- CutWriteLatchesWholeBytesBefore at the ends of its ranges of j: 0, 7, 8, 15, 16 on HALF; 0, 11, 12 on FULL. -/
theorem witness_CutWriteLatchesWholeBytesBefore :
    (∀ j ∈ [0, 7, 8, 15, 16], j < 17) ∧ (∀ j ∈ [0, 11, 12], j < 13) ∧
    (∀ jk ∈ [(0, 0), (7, 0), (8, 1), (15, 1), (16, 2)],
      latchedFrom (.undriven .half) (allOk ((writeSeq .half [0x58#8, 0x59#8]).take jk.1)) =
        (transfersOf .half true 0x58#8).take jk.2) ∧
    (∀ jk ∈ [(0, 0), (11, 0), (12, 1)],
      latchedFrom (.undriven .full) (allOk ((writeSeq .full [0x58#8, 0x59#8]).take jk.1)) =
        (transfersOf .full true 0x58#8).take jk.2) := by decide +kernel

/-- InitAdmission and the three other admissions: a state in each phase, and each kind of payload. -/
theorem witness_Admissions :
    (State.create .half).phase = .uninit ∧ (ready .half).phase = .ready ∧
    (inside .half .init (initSeq .half true true true) 5 []).phase = .initSeq ∧
    (inside .half .seek (seekSeq .half 1#7) 5 []).phase = .opSeq ∧
    ([0x41#8] : List Byte) ≠ [] ∧ (List.replicate 4095 (0#8 : Byte)).length ≤ 4095 := by
  exact ⟨rfl, rfl, rfl, rfl, by decide +kernel, by rw [List.length_replicate]⟩

theorem witness_OverlongWriteIsRefused : 4095 < (List.replicate 4096 (0#8 : Byte)).length := by
  rw [List.length_replicate]; decide

/-- AbortEffect: suspended in the first and in a late Wait of an INIT and in the last Wait of a SEEK; inside an operation at
a PinWrite; and in both phases without an operation. -/
theorem witness_AbortEffect :
    (inside .half .init (initSeq .half true true false) 0 []).seq[0]? = some (.wait .powerOn) ∧
    (inside .half .init (initSeq .half true true false) 87 []).seq[87]? = some (.wait .clear) ∧
    (inside .half .seek (seekSeq .half 3#7) 16 []).seq[16]? = some (.wait .wait) ∧
    (inside .full .seek (seekSeq .full 3#7) 11 []).seq[11]? = some (.pinWrite .e false) ∧
    (State.create .full).phase = .uninit ∧ (ready .full).phase = .ready := by decide +kernel

/-- A transmission is due: at the start of the sequence it is all of, and inside a longer one. -/
theorem due_inside (w : BusWidth) (op : CurOp) (ops part : List MicroOp) (upc : Nat) (answers : List PinAnswer)
    (hc : (inside w op ops upc answers).Coherent) (h : part <+: ops.drop upc) :
    (inside w op ops upc answers).DueNext part :=
  ⟨hc, by unfold inside State.busy; by_cases h : op = .init <;> simp [h], h⟩

/-- ClearDisplayTransfer on HALF, inside its INIT. -/
theorem witness_ClearDisplayTransfer :
    (inside .half .init (initSeq .half true true false) 71 (List.replicate 13 .ok)).DueNext (sendByte .half false 0x01#8 .clear) ∧
    (inside .half .init (initSeq .half true true false) 71 (List.replicate 13 .ok)).AnswersOk
      (sendByte .half false 0x01#8 .clear) [] :=
  ⟨due_inside _ _ _ _ _ _ (inside_init _ _ _ _ _ _ (by decide +kernel)) (by decide +kernel), rfl⟩

/-- CommandByteTransfers: an entry mode that ends its INIT, a display control, an address on either width. -/
theorem witness_CommandByteTransfers :
    (inside .full .init (initSeq .full true true false) 79 (List.replicate 11 .ok)).DueNext
      (sendByte .full false (0x04#8 ||| bitAt true 1 ||| bitAt false 0) .wait) ∧
    (inside .half .setDisplayControl (displayControlSeq .half true false true) 0 (List.replicate 13 .ok)).DueNext
      (sendByte .half false (0x08#8 ||| bitAt true 2 ||| bitAt false 1 ||| bitAt true 0) .wait) ∧
    (inside .full .seek (seekSeq .full 127#7) 0 (List.replicate 11 .ok)).DueNext
      (sendByte .full false (0x80#8 ||| (127#7).zeroExtend 8) .wait) ∧
    (inside .full .seek (seekSeq .full 127#7) 0 (List.replicate 11 .ok)).AnswersOk
      (sendByte .full false (0x80#8 ||| (127#7).zeroExtend 8) .wait) [] :=
  ⟨due_inside _ _ _ _ _ _ (inside_init _ _ _ _ _ _ (by decide +kernel)) (by decide +kernel),
   due_inside _ _ _ _ _ _ (inside_byte _ _ _ _ _ _ _ (by decide +kernel) (by decide +kernel)) (by decide +kernel),
   due_inside _ _ _ _ _ _ (inside_byte _ _ _ _ _ _ _ (by decide +kernel) (by decide +kernel)) (by decide +kernel), rfl⟩

/-- DataByteTransfer: the first byte of a WRITE of two. -/
theorem witness_DataByteTransfer :
    (inside .full .write (writeSeq .full [0x58#8, 0x59#8]) 0 (List.replicate 11 .ok)).DueNext
      (sendByte .full true 0x58#8 .wait) ∧
    (inside .full .write (writeSeq .full [0x58#8, 0x59#8]) 0 (List.replicate 11 .ok)).AnswersOk
      (sendByte .full true 0x58#8 .wait) [] :=
  ⟨due_inside _ _ _ _ _ _ (inside_coherent _ _ _ _ _ (by decide +kernel) (by decide +kernel) (writeSeq_fits _ _)) (by decide +kernel), rfl⟩

/-- FunctionSetTransfer: the final function set on HALF and on FULL, and each wake-up on FULL. -/
theorem witness_FunctionSetTransfer :
    (inside .half .init (initSeq .half true true false) 37 []).DueNext
      (sendByte .half false (0x20#8 ||| bitAt false 4 ||| bitAt true 3) .wait) ∧
    (inside .full .init (initSeq .full false true false) 40 []).DueNext
      (sendByte .full false (0x20#8 ||| bitAt true 4 ||| bitAt false 3) .wait) ∧
    (inside .full .init (initSeq .full false true false) 1 (List.replicate 11 .ok)).DueNext
      (sendByte .full false 0x30#8 .wake1) ∧
    (inside .full .init (initSeq .full false true false) 14 (List.replicate 11 .ok)).DueNext
      (sendByte .full false 0x30#8 .wake2) ∧
    (inside .full .init (initSeq .full false true false) 27 (List.replicate 11 .ok)).DueNext
      (sendByte .full false 0x30#8 .wake3) ∧
    (inside .full .init (initSeq .full false true false) 27 (List.replicate 11 .ok)).AnswersOk
      (sendByte .full false 0x30#8 .wake3) [] :=
  ⟨due_inside _ _ _ _ _ _ (inside_init _ _ _ _ _ _ (by decide +kernel)) (by decide +kernel),
   due_inside _ _ _ _ _ _ (inside_init _ _ _ _ _ _ (by decide +kernel)) (by decide +kernel),
   due_inside _ _ _ _ _ _ (inside_init _ _ _ _ _ _ (by decide +kernel)) (by decide +kernel),
   due_inside _ _ _ _ _ _ (inside_init _ _ _ _ _ _ (by decide +kernel)) (by decide +kernel),
   due_inside _ _ _ _ _ _ (inside_init _ _ _ _ _ _ (by decide +kernel)) (by decide +kernel), rfl⟩

/-- NibbleTransfers: each wake-up and the switch nibble on HALF. -/
theorem witness_NibbleTransfers :
    (inside .half .init (initSeq .half true true false) 1 (List.replicate 7 .ok)).DueNext (sendNibble false 0x3#4 .wake1) ∧
    (inside .half .init (initSeq .half true true false) 10 (List.replicate 7 .ok)).DueNext (sendNibble false 0x3#4 .wake2) ∧
    (inside .half .init (initSeq .half true true false) 19 (List.replicate 7 .ok)).DueNext (sendNibble false 0x3#4 .wake3) ∧
    (inside .half .init (initSeq .half true true false) 28 (List.replicate 7 .ok)).DueNext (sendNibble false 0x2#4 .wait) ∧
    (inside .half .init (initSeq .half true true false) 28 (List.replicate 7 .ok)).AnswersOk
      (sendNibble false 0x2#4 .wait) [] :=
  ⟨due_inside _ _ _ _ _ _ (inside_init _ _ _ _ _ _ (by decide +kernel)) (by decide +kernel),
   due_inside _ _ _ _ _ _ (inside_init _ _ _ _ _ _ (by decide +kernel)) (by decide +kernel),
   due_inside _ _ _ _ _ _ (inside_init _ _ _ _ _ _ (by decide +kernel)) (by decide +kernel),
   due_inside _ _ _ _ _ _ (inside_init _ _ _ _ _ _ (by decide +kernel)) (by decide +kernel), rfl⟩

/-- TransferNotDueIsRefused: with no operation in progress, and inside an operation where another transfer stands next. -/
theorem witness_TransferNotDueIsRefused :
    emitterOf .half .busClearDisplay = some ([sendByte .half false 0x01#8 .clear], .init, .initSeq) ∧
    (ready .half).busy = false ∧
    (∀ ops ∈ [sendByte .half false 0x01#8 .clear], ¬ ops <+: (inside .half .seek (seekSeq .half 1#7) 0 []).seq.drop 0) ∧
    emitterOf .full .busWakeNibble = some ([], .init, .initSeq) := by decide +kernel

/-- TransferIsItsSteps, with an error among the answers. -/
theorem witness_TransferIsItsSteps :
    emitterOf .full (.busSetDdramAddress 5#7) = some ([seekSeq .full 5#7], .seek, .opSeq) ∧
    (inside .full .seek (seekSeq .full 5#7) 0 [.ok, .err anError]).DueNext (seekSeq .full 5#7) ∧
    (inside .full .seek (seekSeq .full 5#7) 0 [.ok, .err anError]).HostSilent :=
  ⟨by decide +kernel, due_inside _ _ _ _ _ _ (inside_byte _ _ _ _ _ _ _ (by decide +kernel) (by decide +kernel)) (by decide +kernel), by decide +kernel, by decide +kernel⟩

/-- PinWriteOk: inside a sequence, on a data line and on E; and at the end of one, where only a state that no run reaches
has a PinWrite. -/
theorem witness_PinWriteOk :
    (inside .half .seek (seekSeq .half 5#7) 4 [.ok]).Coherent ∧ (inside .half .seek (seekSeq .half 5#7) 4 [.ok]).HostSilent ∧
    (inside .half .seek (seekSeq .half 5#7) 4 [.ok]).seq[4]? = some (.pinWrite (.d 3) true) ∧
    (inside .half .seek (seekSeq .half 5#7) 4 [.ok]).pinAnswer = .ok ∧
    (inside .full .seek [.pinWrite .e true] 0 [.ok]).Coherent ∧
    (inside .full .seek [.pinWrite .e true] 0 [.ok]).seq[0]? = some (.pinWrite .e true) :=
  ⟨inside_byte _ _ _ _ _ _ _ (by decide +kernel) (by decide +kernel), by constructor <;> decide, by decide +kernel, by decide +kernel,
   inside_coherent _ _ _ _ _ (by decide +kernel) (by decide +kernel) (by decide +kernel), by decide +kernel⟩

/-- PeripheralErrorEntry: at index 0 of a SEEK and at index 17 of a HALF INIT (L2-7). -/
theorem witness_PeripheralErrorEntry :
    (inside .half .seek (seekSeq .half 5#7) 0 [.err anError]).Coherent ∧
    (inside .half .seek (seekSeq .half 5#7) 0 [.err anError]).seq[0]? = some (.pinWrite .rs false) ∧
    (inside .half .init (initSeq .half false false true) 17 [.err anError]).Coherent ∧
    (inside .half .init (initSeq .half false false true) 17 [.err anError]).HostSilent ∧
    (inside .half .init (initSeq .half false false true) 17 [.err anError]).busy = true ∧
    (inside .half .init (initSeq .half false false true) 17 [.err anError]).seq[17]? = some (.pinWrite .e false) ∧
    (inside .half .init (initSeq .half false false true) 17 [.err anError]).pinAnswer = .err anError :=
  ⟨inside_byte _ _ _ _ _ _ _ (by decide +kernel) (by decide +kernel), by decide +kernel, inside_init _ _ _ _ _ _ (by decide +kernel),
   by constructor <;> decide, by decide +kernel, by decide +kernel, by decide +kernel⟩

/-- WaitNeverFails: the first Wait of an INIT and the last of a WRITE. -/
theorem witness_WaitNeverFails :
    (inside .full .init (initSeq .full true true true) 0 []).Coherent ∧
    (inside .full .init (initSeq .full true true true) 0 []).HostSilent ∧
    (inside .full .init (initSeq .full true true true) 0 []).seq[0]? = some (.wait .powerOn) ∧
    (inside .full .write (writeSeq .full [0x41#8]) 12 []).Coherent ∧
    (inside .full .write (writeSeq .full [0x41#8]) 12 []).seq[12]? = some (.wait .wait) :=
  ⟨inside_init _ _ _ _ _ _ (by decide +kernel), by constructor <;> decide, by decide +kernel,
   inside_coherent _ _ _ _ _ (by decide +kernel) (by decide +kernel) (writeSeq_fits _ _), by decide +kernel⟩

/-- OperationRunsToCompletion: a whole HALF INIT from its start. -/
theorem witness_OperationRunsToCompletion :
    (inside .half .init (initSeq .half true true false) 0 (List.replicate 80 .ok)).Coherent ∧
    (inside .half .init (initSeq .half true true false) 0 (List.replicate 80 .ok)).HostSilent ∧
    (inside .half .init (initSeq .half true true false) 0 (List.replicate 80 .ok)).busy = true ∧
    (inside .half .init (initSeq .half true true false) 0 (List.replicate 80 .ok)).AnswersOk (initSeq .half true true false) [] :=
  ⟨inside_init _ _ _ _ _ _ (by decide +kernel), by constructor <;> decide, by decide +kernel, rfl⟩

/-- FirstFailureEndsTheOperation: program P3, the error at index 26 of a FULL WRITE of three bytes, and at index 0. -/
theorem witness_FirstFailureEndsTheOperation :
    (inside .full .write (writeSeq .full [0x58#8, 0x59#8, 0x5A#8]) 0 (List.replicate 22 .ok ++ [.err anError])).Coherent ∧
    (inside .full .write (writeSeq .full [0x58#8, 0x59#8, 0x5A#8]) 0 (List.replicate 22 .ok ++ [.err anError])).HostSilent ∧
    (writeSeq .full [0x58#8, 0x59#8, 0x5A#8])[0 + 26]? = some (.pinWrite .rs true) ∧
    pinWriteCount ((writeSeq .full [0x58#8, 0x59#8, 0x5A#8]).take 26) = 22 ∧
    (writeSeq .full [0x58#8, 0x59#8, 0x5A#8])[0 + 0]? = some (.pinWrite .rs true) ∧
    pinWriteCount ((writeSeq .full [0x58#8, 0x59#8, 0x5A#8]).take 0) = 0 :=
  ⟨inside_coherent _ _ _ _ _ (by decide +kernel) (by decide +kernel) (writeSeq_fits _ _), by constructor <;> decide, by decide +kernel, by decide +kernel,
   by decide +kernel, by decide +kernel⟩

/-- The invariants hold of a block inside an operation, too, and it steps: StepKeepsCoherence, StepKeepsTheExpansion,
StepKeepsLinesOfTrace, SequenceIsBounded, CoherentStepsNeverFault, CoherentSilentStatesStep, WidthNeverChanges,
TraceFollowsTheSequence. -/
theorem witness_Invariants :
    (inside .half .seek (seekSeq .half 40#7) 0 [.ok]).Coherent ∧
    (inside .half .seek (seekSeq .half 40#7) 0 [.ok]).SeqIsExpansion ∧
    (inside .half .seek (seekSeq .half 40#7) 0 [.ok]).LinesFollowTrace ∧
    (inside .half .seek (seekSeq .half 40#7) 0 [.ok]).HostSilent ∧
    (inside .half .seek (seekSeq .half 40#7) 0 [.ok]).Steps :=
  ⟨inside_byte _ _ _ _ _ _ _ (by decide +kernel) (by decide +kernel), ⟨_, rfl⟩, rfl, by constructor <;> decide, ⟨_, rfl⟩⟩

theorem witness_SequenceIsBounded : (List.replicate 4095 (0#8 : Byte)).length = 4095 := by
  rw [List.length_replicate]

/-- RefusalIsSticky: an instruction that runs with `st.refused` set, an INIT inside an operation, each command outside
READY, and a due request that is no instruction. -/
theorem witness_RefusalIsSticky :
    (∃ t, exec (.init true true true) (State.reset.markRefused) = .next t) ∧ State.reset.markRefused.refused = true ∧
    (∃ t, exec (.init true true true) (inside .full .seek (seekSeq .full 1#7) 0 []) = .next t) ∧
    (inside .full .seek (seekSeq .full 1#7) 0 []).busy = true ∧ State.reset.phase ≠ .ready ∧
    (∃ t, exec (.setDisplayControl true true true) State.reset = .next t) ∧ (∃ t, exec (.seek 0#7) State.reset = .next t) ∧
    (∃ t, exec (.write []) State.reset = .next t) ∧
    (State.reset.placePacket (.request 0x0000#16 [])).NextDue (.request 0x0000#16 []) [] ∧
    decode (.request 0x0000#16 []) = .error .reservedOpcode :=
  ⟨⟨_, rfl⟩, rfl, ⟨_, rfl⟩, rfl, by decide +kernel, ⟨_, rfl⟩, ⟨_, rfl⟩, ⟨_, rfl⟩, ⟨_, rfl, .inl rfl⟩, by decide +kernel⟩

/-- ConfigurationIsInits: a step that admits an INIT, and a block turn. -/
theorem witness_ConfigurationIsInits :
    (∃ t, step (State.reset.placePacket (.request 0x1005#16 [])) = .next t ∧ t.cfgN = true ∧ t.cfgId = false ∧ t.cfgS = true) ∧
    (∃ t, step (inside .half .seek (seekSeq .half 40#7) 16 []) = .next t ∧ t.cfgN = false) :=
  ⟨⟨_, rfl, by decide +kernel⟩, ⟨_, rfl, by decide +kernel⟩⟩

/-- OneResponsePerOperation: the block's turn that ends an operation, with nothing in the inbox and with an ABORT to come. -/
theorem witness_OneResponsePerOperation :
    (∃ t, step (inside .half .seek (seekSeq .half 40#7) 16 []) = .next t ∧ t.busy = false ∧ t.respLog = [.ok 0#12]) ∧
    (inside .half .seek (seekSeq .half 40#7) 16 []).busy = true ∧
    (¬ ∃ p rest, (inside .half .seek (seekSeq .half 40#7) 16 []).NextDue p rest) ∧
    (¬ ∃ p rest, ({ inside .half .seek (seekSeq .half 40#7) 16 [] with
      inbox := [⟨.afterTurns 1, .request 0x5000#16 []⟩] } : State).NextDue p rest) := by
  refine ⟨⟨_, rfl, by decide +kernel⟩, rfl, ?_, ?_⟩
  · rintro ⟨_, _, _, h, -⟩
    cases h
  · rintro ⟨_, _, _, h, h' | ⟨h', -⟩⟩ <;> cases h <;> cases h'

/-- BlockReadsNoObservation: a step, a fault and a refusal. -/
theorem witness_BlockReadsNoObservation :
    (∃ t, step (inside .half .seek (seekSeq .half 40#7) 0 [.ok]) = .next t) ∧
    step (inside .half .seek [.pinWrite (.d 4) true] 0 [.ok]) = .fault .lineNotOnBus ∧
    step State.reset.markRefused = .refused .runWithoutMeaning := ⟨⟨_, rfl⟩, rfl, rfl⟩

theorem witness_IdleBlockWaits : State.reset.HostSilent ∧ State.reset.busy = false := ⟨by constructor <;> decide +kernel, rfl⟩

/-- StepRunsDecodedInstruction: an arrival that is due at once inside an operation, and one that comes when it is over. -/
theorem witness_StepRunsDecodedInstruction :
    decode (.request 0x5000#16 []) = .ok .abort ∧
    ((inside .half .seek (seekSeq .half 40#7) 16 []).placePacket (.request 0x5000#16 [])).NextDue (.request 0x5000#16 []) [] ∧
    ((inside .half .seek (seekSeq .half 40#7) 16 []).placePacket (.request 0x5000#16 [])).refused = false ∧
    ({ ready .half with inbox := [⟨.whenIdle, .request 0x3028#16 []⟩] } : State).NextDue (.request 0x3028#16 []) [] :=
  ⟨by decide +kernel, ⟨_, rfl, .inl rfl⟩, rfl, ⟨_, rfl, .inr ⟨rfl, rfl⟩⟩⟩

theorem witness_StepRunsTheFetchedWord : State.reset.refused = false ∧
    decodeTableWord 16 0x1006 = some (.init true true false) ∧ decodeTableWord 16 0x101 = some (.busWriteData 0x01#8) := by
  decide +kernel

/-- `withFetchWord` runs exactly that transfer as the first instruction after reset, with any answers listed. -/
theorem test_withFetchWord :
    ∃ t, step (({ State.reset with answers := List.replicate 7 .ok } : State).withFetchWord 8 0x03) = .next t ∧
      latchedFrom (.undriven .half) t.trace = [⟨.zero, levelsOf 0x3#4⟩] := ⟨_, rfl, by decide +kernel⟩

/-- BlockTurnBeforeTheArrival: an ABORT that comes in two block turns, and a SEEK for when the operation is over, inside an
INIT; and a request that an idle block has a turn before. -/
theorem witness_BlockTurnBeforeTheArrival :
    (inside .full .init (initSeq .full true true true) 0 []).Coherent ∧
    ({ inside .full .init (initSeq .full true true true) 0 [] with
      inbox := [⟨.afterTurns 2, .request 0x5000#16 []⟩] } : State).busy = true ∧
    ({ inside .full .init (initSeq .full true true true) 0 [] with
      inbox := [⟨.whenIdle, .request 0x3000#16 []⟩] } : State).busy = true ∧
    ({ State.reset with inbox := [⟨.afterTurns 1, .request 0x1000#16 []⟩] } : State).busy = false ∧
    ({ State.reset with inbox := [⟨.afterTurns 1, .request 0x1000#16 []⟩] } : State).refused = false :=
  ⟨inside_init _ _ _ _ _ _ (by decide +kernel), rfl, rfl, rfl, rfl⟩

/-- ControllerIsLostUntilInit: program P4's failure inside an INIT, an ABORT in the power-on wait, and the end of an INIT, each
as one step that ends the operation. -/
theorem witness_ControllerIsLostUntilInit :
    (∃ t, step (inside .half .init (initSeq .half false false true) 17 [.err anError]) = .next t ∧ t.busy = false ∧
      (ControllerView.powerOn.afterStep goodPlatform (inside .half .init (initSeq .half false false true) 17 [.err anError]) t).lost = true) ∧
    (∃ t, step ((inside .half .init (initSeq .half false false true) 0 []).placePacket (.request 0x5000#16 [])) = .next t ∧
      t.busy = false ∧ (ControllerView.powerOn.afterStep goodPlatform
        ((inside .half .init (initSeq .half false false true) 0 []).placePacket (.request 0x5000#16 [])) t).lost = true) ∧
    (∃ t, step (inside .half .init (initSeq .half false false true) 104 []) = .next t ∧ t.busy = false ∧
      (ControllerView.powerOn.lose.afterStep goodPlatform (inside .half .init (initSeq .half false false true) 104 []) t).lost = false) ∧
    ControllerView.powerOn.lose.lost = true ∧ .initDone ∉ [ControllerEvent.aborted] :=
  ⟨⟨_, rfl, by decide +kernel⟩, ⟨_, rfl, by decide +kernel⟩, ⟨_, rfl, by decide +kernel⟩, rfl, by decide +kernel⟩

/-- InitResynchronizesTheController: a platform that meets its duties with every duration at its bound. -/
theorem witness_dutiesMet : goodPlatform.dutiesMet = true := by decide +kernel

/-- ShortWaitsLeaveTheControllerUnspecified: T_CLEAR one nanosecond short; and every duration at its 270 kHz bound, with an
oscillator of 269 kHz. -/
theorem witness_ShortWaitsLeaveTheControllerUnspecified :
    shortClear.durationNs .clear < lowerBoundNsAt shortClear.supply shortClear.oscillatorKhz .clear ∧
    shortClear.dutiesMet = false ∧
    lowerBoundNs .fiveVolt .wait < lowerBoundNsAt .fiveVolt 269 .wait := by decide +kernel

/-- R228: on such a platform a completed INIT and the SEEK after it reach the controller unspecified. -/
theorem test_view_shortWaits :
    (ControllerView.powerOn.after shortClear .full (.undriven .full)
      ((allOk (initSeq .full true true false)).map .performed ++ [.initDone] ++
       (allOk (seekSeq .full 40#7)).map .performed)).items = List.replicate 8 .unspecified := by
  decide +kernel

/-- A SEEK after a failure reaches the controller unspecified (R229); after a completed INIT it arrives as 0xA8. -/
theorem test_view_lostThenFound :
    (ControllerView.powerOn.lose.after goodPlatform .half (.undriven .half) ((allOk (seekSeq .half 40#7)).map .performed)).items =
      [.unspecified, .unspecified] ∧
    (ControllerView.powerOn.lose.after goodPlatform .half (.undriven .half)
      ((allOk (initSeq .half true true false)).map .performed ++ [.initDone] ++
       (allOk (seekSeq .half 40#7)).map .performed)).items.getLast? = some (.item .zero (levelsOf 0xA8#8)) := by
  decide +kernel

theorem witness_AssemblerOutputIsWellFormed : assembleLine "WRITE \"AB\"".toList = .ok [.write [0x41#8, 0x42#8]] := by decide +kernel

end Sys2Proof.Tests
end

section
/-! SUPPORT. The block's turn as equations: a step that is no arrival's, a run of steps with the host silent, and
micro-operations that the pin set answers ok. -/

namespace Sys2Proof.Machine

/-! ## Progress and completion -/

theorem State.okCount_eq (s : State) : s.okCount = if s.curOp = .write then s.wrLen else 0#12 := by
  unfold okCount
  cases s.curOp <;> rfl

theorem State.complete_eq_completed (s : State) : s.complete = s.completed := by
  rw [complete_eq, okCount_eq, completed]

/-- One index further, or completion after the last micro-operation (R13, R34; log 11). -/
theorem State.advance_eq (s : State) :
    s.advance = if s.upc + 1 = s.seq.length then s.completed else { s with upc := s.upc + 1 } := by
  split
  next h => rw [advance_last s h, complete_eq_completed]; rfl
  next h => exact advance_inside s h

@[simp] theorem State.completeAtEnd_width (s : State) : s.completeAtEnd.width = s.width := by
  unfold completeAtEnd; split <;> rfl

@[simp] theorem State.completeAtEnd_out (s : State) : s.completeAtEnd.out = s.out := by
  unfold completeAtEnd; split <;> rfl

@[simp] theorem State.completeAtEnd_trace (s : State) : s.completeAtEnd.trace = s.trace := by
  unfold completeAtEnd; split <;> rfl

@[simp] theorem State.advance_width (s : State) : s.advance.width = s.width := completeAtEnd_width _
@[simp] theorem State.advance_out (s : State) : s.advance.out = s.out := completeAtEnd_out _
@[simp] theorem State.advance_trace (s : State) : s.advance.trace = s.trace := completeAtEnd_trace _

section startOp

variable (s : State) (op : CurOp) (ph : Phase) (ops : List MicroOp)

@[simp] theorem State.startOp_width : (s.startOp op ph ops).width = s.width := completeAtEnd_width _
@[simp] theorem State.startOp_out : (s.startOp op ph ops).out = s.out := completeAtEnd_out _
@[simp] theorem State.startOp_trace : (s.startOp op ph ops).trace = s.trace := completeAtEnd_trace _

end startOp

/-- An operation that is still in progress after an advance is one index further in the same sequence. -/
theorem State.advance_busy {s : State} (h : s.advance.busy = true) :
    s.advance.seq = s.seq ∧ s.advance.upc = s.upc + 1 := by
  rw [advance_eq] at h ⊢
  split at h
  next => cases h
  next hl => rw [if_neg hl]; exact ⟨rfl, rfl⟩

/-! ## The block's turn -/

/-- Every micro-operation of the sequence writes a line the bus has (R12, R36). -/
def State.OpsFit (s : State) : Prop := ∀ op ∈ s.seq, op.fits s.width = true

theorem State.keeps_opsFit : Keeps fun s t => s.OpsFit → t.OpsFit where
  refl _ h := h
  trans hst htu h := htu (hst h)
  setLine _ _ _ h := h
  record _ _ _ h := h
  afterAnswer s h := by simpa [OpsFit] using h
  respond _ _ h := h
  endOp _ _ _ := by simp [OpsFit]
  index _ _ h := h

theorem State.nextOp_fits {s : State} (hf : s.OpsFit) : s.nextOp.all (·.fits s.width) = true := by
  cases h : s.nextOp with
  | none => rfl
  | some op => exact hf op (List.mem_of_getElem? h)

/-- The block's turn is a micro-operation inside an operation and nothing outside one (R13, R222). -/
theorem State.blockTurn_eq {s : State} (hf : s.OpsFit) :
    s.blockTurn = .next (if s.busy then s.microStep else s) := by
  unfold blockTurn
  rw [nextOp_fits hf, if_pos rfl]
  split <;> rfl

/-- With the host silent, the step is the block's turn. -/
theorem step_silent {s : State} (hs : s.HostSilent) (hf : s.OpsFit) :
    step s = .next (if s.busy then s.microStep else s) := by
  obtain ⟨hr, hi⟩ := hs
  simp only [step, hr, takeDue_empty hi, tickInbox_empty hi, Bool.false_eq_true, if_false]
  exact State.blockTurn_eq hf

/-- With an arrival that is not due, the step is the block's turn, and the arrival is one turn nearer (log 5). -/
theorem step_before_arrival {s : State} {a : Arrival} {rest : List Arrival} (hf : s.OpsFit) (hr : s.refused = false)
    (hi : s.inbox = a :: rest) (hd : a.due s.busy = false) :
    step s = .next { (if s.busy then s.microStep else s) with inbox := a.tick :: rest } := by
  have htake : s.takeDue = none := by simp [State.takeDue, hi, hd]
  have htick : s.tickInbox = { s with inbox := a.tick :: rest } := by simp [State.tickInbox, hi]
  have hturn : step s = s.tickInbox.blockTurn := by simp [step, hr, htake]
  rw [hturn, htick, State.blockTurn_eq (s := { s with inbox := a.tick :: rest }) hf, State.microStep_withInbox,
    show ({ s with inbox := a.tick :: rest } : State).busy = s.busy from rfl]
  cases s.busy <;> rfl

theorem microStep_hostSilent {s : State} (h : s.HostSilent) : s.microStep.HostSilent := by
  obtain ⟨-, -, -, -, hr, hi⟩ := s.microStep_sameSetting
  exact ⟨hr.trans h.1, hi.trans h.2⟩

theorem run_succ {s t : State} {n : Nat} (h : step s = .next t) :
    Host.Core.run Sys2Proof.core (n + 1) s = Host.Core.run Sys2Proof.core n t := by
  simp only [Host.Core.run, show Sys2Proof.core.step s = .next t from h]

/-- With the host silent, `n` steps are `n` micro-operations, as long as the operation lasts. -/
theorem run_silent {s : State} (hs : s.HostSilent) (hf : s.OpsFit) (n : Nat) :
    Host.Core.run Sys2Proof.core n s = .next (s.microSteps n) := by
  induction n generalizing s with
  | zero => rfl
  | succ n ih =>
    cases hb : s.busy with
    | true =>
      have hstep : step s = .next s.microStep := by rw [step_silent hs hf, if_pos hb]
      rw [run_succ hstep, State.microSteps_succ s n hb]
      exact ih (microStep_hostSilent hs) (State.keeps_opsFit.microStep s hf)
    | false =>
      have hstep : step s = .next s := by rw [step_silent hs hf, hb]; rfl
      rw [run_succ hstep, ih hs hf, State.microSteps_idle s n hb, State.microSteps_idle s _ hb]

/-! ## Micro-operations that are answered ok -/

theorem State.microStep_pinWrite_ok {s : State} {p : Line} {l : Bool} (hn : s.nextOp = some (.pinWrite p l))
    (ha : s.pinAnswer = .ok) :
    s.microStep = ((s.afterAnswer.record (.pinWrite p l) .ok).setLine p (.ofBool l)).advance := by
  simp [microStep, hn, performPinWrite, ha]

theorem State.microStep_wait {s : State} {d : Duration} (hn : s.nextOp = some (.wait d)) :
    s.microStep = (s.record (.wait d) .ok).advance := by
  simp [microStep, hn, performWait]

@[simp] theorem pinWriteCount_pinWrite (p : Line) (l : Bool) (ops : List MicroOp) :
    pinWriteCount (.pinWrite p l :: ops) = pinWriteCount ops + 1 := by simp [pinWriteCount]

@[simp] theorem pinWriteCount_wait (d : Duration) (ops : List MicroOp) :
    pinWriteCount (.wait d :: ops) = pinWriteCount ops := by simp [pinWriteCount]

/-- The next micro-operation of a list whose PinWrites are all answered ok. -/
theorem State.microStep_answersOk {s : State} {op : MicroOp} {ops : List MicroOp} {rest : List PinAnswer}
    (hn : s.nextOp = some op) (ha : s.AnswersOk (op :: ops) rest) :
    s.microStep = s.sent [op] (List.replicate (pinWriteCount ops) .ok ++ rest) (TraceEntry.drive s.out ⟨op, .ok⟩) := by
  cases op with
  | pinWrite p l =>
    have hl : s.answers = .ok :: (List.replicate (pinWriteCount ops) .ok ++ rest) := by
      rw [ha, pinWriteCount_pinWrite, List.replicate_succ, List.cons_append]
    rw [microStep_pinWrite_ok hn (pinAnswer_listed s hl), afterAnswer_listed s hl, advance_eq]
    rfl
  | wait d =>
    have hl : s.answers = List.replicate (pinWriteCount ops) .ok ++ rest := by rw [ha, pinWriteCount_wait]
    rw [microStep_wait hn, ← hl, advance_eq]
    rfl

/-- Micro-operations that stand next and whose PinWrites are all answered ok are performed, all of them, in list order. -/
theorem State.microSteps_answersOk {s : State} {ops : List MicroOp} {rest : List PinAnswer} (hb : s.busy = true)
    (hu : s.upc < s.seq.length) (hp : ops <+: s.seq.drop s.upc) (ha : s.AnswersOk ops rest) :
    s.microSteps ops.length = s.sent ops rest ((allOk ops).foldl TraceEntry.drive s.out) := by
  induction ops generalizing s with
  | nil =>
    have hr : rest = s.answers := ha.symm
    simp [sent, Nat.ne_of_lt hu, hr, allOk]
  | cons op ops ih =>
    rw [List.drop_eq_getElem_cons hu, List.cons_prefix_cons] at hp
    obtain ⟨hop, hp⟩ := hp
    have hn : s.nextOp = some op := by rw [nextOp, List.getElem?_eq_getElem hu, hop]
    rw [List.length_cons, microSteps_succ s _ hb, microStep_answersOk hn ha]
    by_cases hlast : s.upc + 1 = s.seq.length
    · obtain rfl : ops = [] := by simpa [hlast] using hp
      rfl
    · have hu' : s.upc + 1 < s.seq.length := by omega
      rw [sent, List.length_singleton, if_neg hlast]
      refine (ih ?_ ?_ ?_ ?_).trans ?_
      · exact hb
      · exact hu'
      · exact hp
      · rfl
      · simp [sent, completed, allOk, Nat.add_assoc, Nat.add_comm 1]

end Sys2Proof.Machine
end

section
/-! SUPPORT. A controller transfer sends the form that is due; what an instruction and a micro-operation add to the trace, and
the lines that follow from it. -/

namespace Sys2Proof.Machine

/-! ## Transfers -/

theorem exec_transfer {i : Instr} {s : State} {forms : List (List MicroOp)} {op : CurOp} {ph : Phase}
    (h : emitterOf s.width i = some (forms, op, ph)) : exec i s = s.transmit forms := by
  cases i with
  | init | setDisplayControl | seek | write | abort => cases h
  | busClearDisplay | busEntryModeSet | busDisplayControl | busFunctionSet | busSetDdramAddress | busWriteData
  | busWakeNibble | busSwitchNibble => cases h; rfl

theorem sendByte_length (w : BusWidth) (rs : Bool) (v : Byte) (d : Duration) :
    (sendByte w rs v d).length = if w = .half then 17 else 13 := by
  cases w <;> rfl

theorem sendNibble_length (rs : Bool) (x : Nibble) (d : Duration) : (sendNibble rs x d).length = 9 := rfl

/-- The forms of a transmission differ in their last wait only, so they are of one length. -/
theorem forms_sameLength {w : BusWidth} {i : Instr} {forms : List (List MicroOp)} {op : CurOp} {ph : Phase}
    (h : emitterOf w i = some (forms, op, ph)) : ∀ a ∈ forms, ∀ b ∈ forms, a.length = b.length := by
  cases i with
  | init | setDisplayControl | seek | write | abort => cases h
  | busClearDisplay | busEntryModeSet | busDisplayControl | busSetDdramAddress | busWriteData =>
    cases h
    simp [clearDisplayForms, entryModeForms, displayControlForms, setDdramAddressForms, writeDataForms]
  | busFunctionSet dl n => cases h; simp [functionSetForms, sendByte_length]
  | busWakeNibble => cases h; cases w <;> simp [wakeNibbleForms, sendNibble_length]
  | busSwitchNibble => cases h; cases w <;> simp [switchNibbleForms]

theorem State.isDue_of_dueNext {s : State} {ops : List MicroOp} (h : s.DueNext ops) : s.isDue ops = true := by
  obtain ⟨-, hb, hp⟩ := h
  simp [isDue, hb, hp]

/-- A transmission one of whose forms is due is sent whole. -/
theorem exec_due {i : Instr} {s : State} {forms : List (List MicroOp)} {op : CurOp} {ph : Phase} {ops : List MicroOp}
    (he : emitterOf s.width i = some (forms, op, ph)) (hm : ops ∈ forms) (hd : s.DueNext ops) :
    exec i s = .next (s.microSteps ops.length) := by
  rw [exec_transfer he, State.transmit]
  cases hf : forms.find? s.isDue with
  | none => exact absurd (State.isDue_of_dueNext hd) (List.find?_eq_none.1 hf ops hm)
  | some found => simp only [forms_sameLength he found (List.mem_of_find?_eq_some hf) ops hm]

/-! ## What is added to the trace -/

/-- What is added to the trace of `s` are the first micro-operations of its sequence from `st.upc` on (R70, R129). -/
def State.TraceGrowsInOrder (s t : State) : Prop :=
  ∃ (n : Nat) (more : List TraceEntry), t.trace = s.trace ++ more ∧ more.map (·.op) = (s.seq.drop s.upc).take n

theorem State.traceGrowsInOrder_of_eq {s t : State} (h : t.trace = s.trace) : s.TraceGrowsInOrder t :=
  ⟨0, [], by simp [h], rfl⟩

/-- A micro-operation records itself, and an operation that is still in progress is one index further. -/
theorem State.microStep_records (s : State) : ∃ more, s.microStep.trace = s.trace ++ more ∧
    more.map (·.op) = (s.seq.drop s.upc).take 1 ∧
    (s.microStep.busy = true → s.microStep.seq = s.seq ∧ s.microStep.upc = s.upc + 1) := by
  have take_one : (s.seq.drop s.upc).take 1 = s.nextOp.toList := by
    rw [List.take_one, List.head?_drop, nextOp]
  rw [take_one]
  obtain ⟨p, l, hn, -, e⟩ | ⟨p, l, r, hn, -, e⟩ | ⟨d, hn, e⟩ | ⟨hn, e⟩ := s.microStep_cases <;> rw [e, hn]
  · exact ⟨[⟨.pinWrite p l, .ok⟩], by simp, rfl, fun h => by simpa using advance_busy h⟩
  · exact ⟨[⟨.pinWrite p l, .err r⟩], by simp [raisePeripheralError_eq], rfl, fun h => by simp at h⟩
  · exact ⟨[⟨.wait d, .ok⟩], by simp, rfl, fun h => by simpa using advance_busy h⟩
  · exact ⟨[], by simp [complete_eq], rfl, fun h => by cases h⟩

theorem State.microSteps_traceGrowsInOrder (s : State) (n : Nat) : s.TraceGrowsInOrder (s.microSteps n) := by
  induction n generalizing s with
  | zero => exact traceGrowsInOrder_of_eq rfl
  | succ n ih =>
    cases hb : s.busy with
    | false => rw [microSteps_idle s _ hb]; exact traceGrowsInOrder_of_eq rfl
    | true =>
      rw [microSteps_succ s n hb]
      obtain ⟨more, ht, hm, hin⟩ := s.microStep_records
      cases hb' : s.microStep.busy with
      | false => rw [microSteps_idle _ n hb']; exact ⟨1, more, ht, hm⟩
      | true =>
        obtain ⟨hseq, hupc⟩ := hin hb'
        obtain ⟨k, more', ht', hm'⟩ := ih s.microStep
        refine ⟨1 + k, more ++ more', by rw [ht', ht, List.append_assoc], ?_⟩
        rw [List.map_append, hm, hm', hseq, hupc, List.take_add, List.drop_drop]

theorem exec_traceGrowsInOrder {i : Instr} {s t : State} (h : exec i s = .next t) : s.TraceGrowsInOrder t := by
  cases exec_cases h with
  | transfer _ ops _ e => rw [e]; exact s.microSteps_traceGrowsInOrder _
  | refused _ e | init _ _ _ _ e | display _ _ _ _ e | seek _ _ e | write _ _ _ e | abort _ e | abortIdle e =>
    exact State.traceGrowsInOrder_of_eq (by simp [e])

/-! ## The lines -/

theorem State.LinesFollowTrace.of_eq {s t : State} (h : s.LinesFollowTrace) (hw : t.width = s.width)
    (ho : t.out = s.out) (ht : t.trace = s.trace) : t.LinesFollowTrace := by
  rw [LinesFollowTrace, ho, hw, ht]
  exact h

/-- A state that drives its lines by the one entry it adds to the trace. -/
theorem State.LinesFollowTrace.of_drive {s t : State} (h : s.LinesFollowTrace) (e : TraceEntry)
    (hw : t.width = s.width) (ho : t.out = e.drive s.out) (ht : t.trace = s.trace ++ [e]) : t.LinesFollowTrace := by
  rw [LinesFollowTrace, ho, hw, ht, linesAfter_snoc, ← h]

theorem State.microStep_linesFollowTrace {s : State} (h : s.LinesFollowTrace) : s.microStep.LinesFollowTrace := by
  obtain ⟨p, l, -, -, e⟩ | ⟨p, l, r, -, -, e⟩ | ⟨d, -, e⟩ | ⟨-, e⟩ := s.microStep_cases <;> rw [e]
  · exact h.of_drive ⟨.pinWrite p l, .ok⟩ (by simp) (by simp [drive_ok_pinWrite]) (by simp)
  · exact h.of_drive ⟨.pinWrite p l, .err r⟩ (by simp [raisePeripheralError_eq])
      (by simp [raisePeripheralError_eq, drive_err_pinWrite]) (by simp [raisePeripheralError_eq])
  · exact h.of_drive ⟨.wait d, .ok⟩ (by simp) (by simp [drive_wait]) (by simp)
  · exact h.of_eq rfl rfl rfl

/-- A data line that the sequence of a coherent state writes is one of its lines. -/
theorem State.Coherent.dataLine_lt {s : State} (hc : s.Coherent) {p : Line} {l : Bool}
    (hn : s.seq[s.upc]? = some (.pinWrite p l)) (i : Nat) (hp : p = .d i) : i < s.out.d.length := by
  have hfit := hc.opsFit _ (List.mem_of_getElem? hn)
  rw [hp] at hfit
  rw [hc.dataLines]
  exact of_decide_eq_true hfit

end Sys2Proof.Machine
end

section
/-! The obligations of 00_scope.md. -/

namespace Sys2Proof.Machine

/-- Settles O31: both sides are the micro-operations of the form that is due, performed in turn. -/
theorem transferIsItsSteps : Obligations.TransferIsItsSteps := by
  unfold Obligations.TransferIsItsSteps
  intro i s forms op ph ops he hm hd hs
  exact (exec_due he hm hd).trans (run_silent hs hd.1.opsFit ops.length).symm

/-- Settles O32: the step is the micro-operation, and its equation gives the lines. -/
theorem pinWriteOk : Obligations.PinWriteOk := by
  unfold Obligations.PinWriteOk
  intro s p l hc hs hb hn ha
  have hstep : step s = .next s.microStep := by rw [step_silent hs hc.opsFit, if_pos hb]
  have hmicro := State.microStep_pinWrite_ok hn ha
  have hout : s.microStep.out = s.out.set p (.ofBool l) := by simp [hmicro]
  refine ⟨s.microStep, hstep, ?_, ?_, fun q hq => ?_⟩
  · rw [hmicro, State.advance_eq]
    simp [State.record, State.setLine]
  · rw [hout, OutLines.get_set_same _ _ _ (hc.dataLine_lt hn)]
  · rw [hout, OutLines.get_set_other _ _ _ _ hq]

/-- Settles O35: the steps are the micro-operations left, all answered ok, and they end at the sequence's end. -/
theorem operationRunsToCompletion : Obligations.OperationRunsToCompletion := by
  unfold Obligations.OperationRunsToCompletion
  intro s rest hc hs hb ha
  have hu := hc.busyUpc hb
  have hend : s.upc + (s.seq.drop s.upc).length = s.seq.length := by rw [List.length_drop]; omega
  rw [run_silent hs hc.opsFit, ← List.length_drop, State.microSteps_answersOk hb hu (List.prefix_refl _) ha,
    State.sent, if_pos hend]

/-- Settles O41: only a micro-operation writes a line, and it writes the one that its trace entry drives. -/
theorem stepKeepsLinesOfTrace : Obligations.StepKeepsLinesOfTrace := by
  unfold Obligations.StepKeepsLinesOfTrace
  intro s t hs h
  refine step_induct (P := State.LinesFollowTrace) ?inbox ?mark ?init ?display ?seek ?write ?abort ?micro hs h
  case inbox => exact fun _ _ h => h
  case mark => exact fun _ h => h
  case init => exact fun _ _ _ _ _ h => h.of_eq (by simp) (by simp) (by simp)
  case display => exact fun _ _ _ _ _ h => h.of_eq (by simp) (by simp) (by simp)
  case seek => exact fun _ _ _ h => h.of_eq (by simp) (by simp) (by simp)
  case write => exact fun _ _ _ _ h => h.of_eq (by simp) (by simp) (by simp)
  case abort => exact fun _ _ h => h
  case micro => exact fun _ _ h => State.microStep_linesFollowTrace h

/-- Settles O49: only a micro-operation adds to the trace, and it adds the one at `st.upc`. -/
theorem traceFollowsTheSequence : Obligations.TraceFollowsTheSequence := by
  unfold Obligations.TraceFollowsTheSequence
  intro s t h
  obtain ⟨-, ⟨p, u, i, hd, -, he⟩ | ⟨p, u, hd, rfl⟩ | ⟨-, -, rfl⟩ | ⟨-, -, rfl⟩⟩ := step_cases h
  · obtain ⟨_, rest, -, -, -, rfl⟩ := takeDue_some hd
    have hu := exec_traceGrowsInOrder he
    exact hu
  · obtain ⟨_, rest, -, -, -, rfl⟩ := takeDue_some hd
    exact State.traceGrowsInOrder_of_eq rfl
  · obtain ⟨box, hx⟩ := tickInbox_eq s
    obtain ⟨more, ht, hm, -⟩ := s.microStep_records
    exact ⟨1, more, by rw [hx, State.microStep_withInbox]; exact ht, hm⟩
  · obtain ⟨box, hx⟩ := tickInbox_eq s
    exact State.traceGrowsInOrder_of_eq (by rw [hx])

/-- Settles O54: in each case the arrival is not due, so the step is the block's turn. -/
theorem blockTurnBeforeTheArrival : Obligations.BlockTurnBeforeTheArrival := by
  unfold Obligations.BlockTurnBeforeTheArrival
  intro s p rest n hc hr
  refine ⟨fun hb hi => ?_, fun hb hi => ?_, fun hb hi => ?_⟩
  · rw [step_before_arrival hc.opsFit hr hi rfl, if_pos hb]; rfl
  · rw [step_before_arrival hc.opsFit hr hi rfl, hb]; rfl
  · rw [step_before_arrival hc.opsFit hr hi (by simp [Arrival.due, hb]), if_pos hb]; rfl

/-- Settles O52: what is taken from the inbox is the packet that is due. -/
theorem stepRunsDecodedInstruction : Obligations.StepRunsDecodedInstruction := by
  unfold Obligations.StepRunsDecodedInstruction
  intro s p rest i hr hd hp
  have htake : s.takeDue = some (p, { s with inbox := rest }) := takeDue_eq_some_iff.2 ⟨rest, hd, rfl⟩
  simp [step, hr, htake, hp]

end Sys2Proof.Machine
end

section
/-! SUPPORT. How a step moves the operation in progress: it is admitted, goes one index further, or ends and leaves the block
at rest. -/

namespace Sys2Proof.Machine

/-- No operation is in progress, and nothing of one is left (R34, R35). -/
structure State.AtRest (s : State) : Prop where
  idle : s.busy = false
  curOp : s.curOp = .none
  seq : s.seq = []
  upc : s.upc = 0
  wrLen : s.wrLen = 0#12

theorem State.complete_atRest (s : State) : s.complete.AtRest := ⟨rfl, rfl, rfl, rfl, rfl⟩

theorem State.endOp_atRest (s : State) (op : CurOp) : (s.endOp op.phaseAfterStop).AtRest :=
  ⟨phaseAfterStop_idle s op, rfl, rfl, rfl, rfl⟩

theorem State.raisePeripheralError_atRest (s : State) (p : Line) (e : PinErr) : (s.raisePeripheralError p e).AtRest :=
  ⟨raisePeripheralError_busy s p e, rfl, rfl, rfl, rfl⟩

/-! ## Admission -/

theorem displayControlSeq_ne_nil (w : BusWidth) (d c b : Bool) : displayControlSeq w d c b ≠ [] := by
  cases w <;> exact List.cons_ne_nil _ _

theorem seekSeq_ne_nil (w : BusWidth) (a : Address) : seekSeq w a ≠ [] := by
  cases w <;> exact List.cons_ne_nil _ _

theorem initSeq_ne_nil (w : BusWidth) (n id sh : Bool) : initSeq w n id sh ≠ [] := List.cons_ne_nil _ _

/-- Admission of an expansion that is not empty. -/
theorem State.startOp_inside (s : State) (op : CurOp) (ph : Phase) {ops : List MicroOp} (h : ops ≠ []) :
    s.startOp op ph ops = { s with curOp := op, phase := ph, seq := ops, upc := 0 } := by
  obtain ⟨o, rest, rfl⟩ := List.exists_cons_of_ne_nil h
  exact startOp_cons s op ph o rest

/-- An empty expansion leaves the block at rest (R164). -/
theorem State.startOp_nil_atRest (s : State) (op : CurOp) (ph : Phase) : (s.startOp op ph []).AtRest := by
  rw [startOp_nil]
  exact complete_atRest _

/-! ## Progress -/

/-- The operation in progress goes on in `t`, one index further in the same sequence. -/
structure State.GoesOn (s t : State) : Prop where
  phase : t.phase = s.phase
  curOp : t.curOp = s.curOp
  seq : t.seq = s.seq
  upc : t.upc = s.upc + 1
  wrLen : t.wrLen = s.wrLen
  inside : s.upc + 1 ≠ s.seq.length

theorem State.advance_atRest_or_goesOn (s : State) : s.advance.AtRest ∨ s.GoesOn s.advance := by
  by_cases h : s.upc + 1 = s.seq.length
  · rw [advance_last s h]; exact .inl (complete_atRest _)
  · rw [advance_inside s h]; exact .inr ⟨rfl, rfl, rfl, rfl, rfl, h⟩

/-- A micro-operation ends the operation or moves it one index further. -/
theorem State.microStep_atRest_or_goesOn (s : State) : s.microStep.AtRest ∨ s.GoesOn s.microStep := by
  obtain ⟨p, l, -, -, e⟩ | ⟨p, l, r, -, -, e⟩ | ⟨d, -, e⟩ | ⟨-, e⟩ := s.microStep_cases <;> rw [e]
  · refine (advance_atRest_or_goesOn _).imp_right fun ⟨ph, co, sq, up, wl, ins⟩ => ?_
    exact ⟨by simpa using ph, by simpa using co, by simpa using sq, by simpa using up, by simpa using wl,
      by simpa using ins⟩
  · exact .inl (raisePeripheralError_atRest _ p r)
  · exact (advance_atRest_or_goesOn _).imp_right fun ⟨ph, co, sq, up, wl, ins⟩ => ⟨ph, co, sq, up, wl, ins⟩
  · exact .inl (complete_atRest s)

/-! ## The expansion -/

theorem State.AtRest.seqIsExpansion {s : State} (h : s.AtRest) : s.SeqIsExpansion := by
  rw [SeqIsExpansion, h.curOp]
  exact h.seq

theorem State.SeqIsExpansion.of_eq {s t : State} (h : s.SeqIsExpansion) (hw : t.width = s.width) (hn : t.cfgN = s.cfgN)
    (hi : t.cfgId = s.cfgId) (hs : t.cfgS = s.cfgS) (hc : t.curOp = s.curOp) (hq : t.seq = s.seq)
    (hl : t.wrLen = s.wrLen) : t.SeqIsExpansion := by
  rw [SeqIsExpansion, hw, hn, hi, hs, hc, hq, hl]
  exact h

theorem State.microStep_seqIsExpansion {s : State} (h : s.SeqIsExpansion) : s.microStep.SeqIsExpansion := by
  obtain hr | hg := s.microStep_atRest_or_goesOn
  · exact hr.seqIsExpansion
  · obtain ⟨hw, hn, hi, hs, -, -⟩ := s.microStep_sameSetting
    exact h.of_eq hw hn hi hs hg.curOp hg.seq hg.wrLen

/-! ## Coherence -/

theorem State.AtRest.coherent {s : State} (h : s.AtRest) (hd : s.out.d.length = s.width.lines) : s.Coherent where
  dataLines := hd
  idleSeq _ := h.seq
  idleUpc _ := h.upc
  busyUpc hb := by simp [h.idle] at hb
  idleOp := by simp [h.idle, h.curOp]
  initPhase := by
    have hp := (busy_eq_false_iff s).1 h.idle
    rw [h.curOp]
    obtain hp | hp := hp <;> simp [hp]
  writeLen _ := h.wrLen
  opsFit := by simp [h.seq]

/-- A coherent state with no operation in progress is at rest. -/
theorem State.Coherent.atRest {s : State} (h : s.Coherent) (hb : s.busy = false) : s.AtRest :=
  have hop := h.idleOp.2 hb
  ⟨hb, hop, h.idleSeq hb, h.idleUpc hb, h.writeLen (by simp [hop])⟩

theorem State.Coherent.atRest_of_ready {s : State} (h : s.Coherent) (hr : s.phase = .ready) : s.AtRest :=
  h.atRest ((busy_eq_false_iff s).2 (.inr hr))

/-- Admission of an operation in its own phase, with an expansion that fits the bus, gives a coherent state. -/
theorem State.startOp_coherent {s : State} {op : CurOp} {ph : Phase} {ops : List MicroOp}
    (hd : s.out.d.length = s.width.lines) (hop : op ≠ .none) (hph : ph = if op = .init then .initSeq else .opSeq)
    (hl : op ≠ .write → s.wrLen = 0#12) (hf : ∀ x ∈ ops, x.fits s.width = true) : (s.startOp op ph ops).Coherent := by
  by_cases hne : ops = []
  · subst hne
    exact (startOp_nil_atRest s op ph).coherent (by simpa using hd)
  · have hbusy : ({ s with curOp := op, phase := ph, seq := ops, upc := 0 } : State).busy = true := by
      rw [busy_eq_true_iff, hph]
      by_cases h : op = .init <;> simp [h]
    rw [startOp_inside s op ph hne]
    exact
      { dataLines := hd
        idleSeq := fun h => by simp [hbusy] at h
        idleUpc := fun h => by simp [hbusy] at h
        busyUpc := fun _ => List.length_pos_iff.2 hne
        idleOp := by simp [hbusy, hop]
        initPhase := by by_cases h : op = .init <;> simp [hph, h]
        writeLen := hl
        opsFit := hf }

/-- The block gains and loses no data line. -/
theorem State.keeps_dataLines :
    Keeps fun s t => s.out.d.length = s.width.lines → t.out.d.length = t.width.lines where
  refl _ h := h
  trans hst htu h := htu (hst h)
  setLine _ _ _ h := by simpa using h
  record _ _ _ h := h
  afterAnswer s h := by simpa using h
  respond _ _ h := h
  endOp _ _ h := h
  index _ _ h := h

theorem State.microStep_coherent {s : State} (hb : s.busy = true) (h : s.Coherent) : s.microStep.Coherent := by
  have hd := keeps_dataLines.microStep s h.dataLines
  obtain hr | hg := s.microStep_atRest_or_goesOn
  · exact hr.coherent hd
  · have hbusy : s.microStep.busy = true := by rw [busy, hg.phase]; exact hb
    have hlt := h.busyUpc hb
    have hin := hg.inside
    exact
      { dataLines := hd
        idleSeq := fun h => by simp [hbusy] at h
        idleUpc := fun h => by simp [hbusy] at h
        busyUpc := fun _ => by rw [hg.upc, hg.seq]; omega
        idleOp := by rw [hg.curOp, h.idleOp, hb, hbusy]
        initPhase := by rw [hg.phase, hg.curOp]; exact h.initPhase
        writeLen := by rw [hg.curOp, hg.wrLen]; exact h.writeLen
        opsFit := keeps_opsFit.microStep s h.opsFit }

end Sys2Proof.Machine
end

section
/-! SUPPORT. What an instruction and a step never do: raise a fault outside the block's turn, clear `st.refused`, write the
configuration without an INIT; and which packet is an INIT. -/

namespace Sys2Proof.Machine

/-! ## Faults -/

theorem State.transmit_ne_fault (s : State) (forms : List (List MicroOp)) (r : Fault) : s.transmit forms ≠ .fault r := by
  intro h
  unfold transmit at h
  split at h <;> cases h

theorem exec_ne_fault (i : Instr) (s : State) (r : Fault) : exec i s ≠ .fault r := by
  intro h
  cases i with
  | init n id sh =>
    simp only [exec, execInit] at h
    split at h <;> cases h
  | setDisplayControl | seek => cases h
  | write bytes =>
    simp only [exec, execWrite] at h
    split at h <;> cases h
  | abort =>
    simp only [exec, execAbort] at h
    split at h <;> cases h
  | busClearDisplay | busEntryModeSet | busDisplayControl | busFunctionSet | busSetDdramAddress | busWriteData
  | busWakeNibble | busSwitchNibble => exact s.transmit_ne_fault _ r h

/-- Only the block's own turn faults. -/
theorem step_fault {s : State} {r : Fault} (h : step s = .fault r) : s.tickInbox.blockTurn = .fault r := by
  unfold step at h
  split at h
  · cases h
  split at h
  · split at h
    · exact absurd h (exec_ne_fault _ _ r)
    · unfold State.rejectPacket at h
      split at h <;> cases h
  · exact h

/-! ## Width, configuration, `st.refused` -/

theorem State.startOp_sameSetting (s : State) (op : CurOp) (ph : Phase) (ops : List MicroOp) :
    s.SameSetting (s.startOp op ph ops) :=
  keeps_sameSetting.completeAtEnd { s with curOp := op, phase := ph, seq := ops, upc := 0 }

/-- No instruction clears `st.refused` (R38). -/
theorem exec_keepsRefused {i : Instr} {s t : State} (hs : s.refused = true) (h : exec i s = .next t) :
    t.refused = true := by
  have started (u : State) (op ph ops) (hu : u.refused = true) : (u.startOp op ph ops).refused = true := by
    obtain ⟨-, -, -, -, hr, -⟩ := u.startOp_sameSetting op ph ops
    exact hr.trans hu
  cases exec_cases h with
  | refused _ e => rw [e]; rfl
  | init _ _ _ _ e | display _ _ _ _ e | seek _ _ e | write _ _ _ e => rw [e]; exact started _ _ _ _ hs
  | abort _ e | abortIdle e => rw [e]; exact hs
  | transfer _ ops _ e =>
    obtain ⟨-, -, -, -, hr, -⟩ := s.microSteps_sameSetting ops.length
    rw [e, hr, hs]

/-- An INIT inside an operation is not admitted (R140). -/
theorem exec_init_busy {n id sh : Bool} {s : State} (hb : s.busy = true) :
    exec (.init n id sh) s = .next s.markRefused := by
  simp [exec, execInit, State.admitsInit_eq, hb]

/-- A command outside READY is not admitted (R160). -/
theorem State.command_notReady {s : State} (hp : s.phase ≠ .ready) (op : CurOp) (len : Count) (ops : List MicroOp) :
    s.command op len ops = s.markRefused := by
  simp [command, admitsCommand_eq, hp]

/-- A due request that is no instruction sets `st.refused`, and the step does nothing else (R87, R88; log 6). -/
theorem step_rejectedRequest {s : State} {q : Word} {payload : List Byte} {rest : List Arrival} {r : Reject}
    (hr : s.refused = false) (hd : s.NextDue (.request q payload) rest) (hp : decode (.request q payload) = .error r) :
    step s = .next { s with inbox := rest, refused := true } := by
  have htake : s.takeDue = some (.request q payload, { s with inbox := rest }) :=
    takeDue_eq_some_iff.2 ⟨rest, hd, rfl⟩
  simp [step, hr, htake, hp, State.rejectPacket, State.markRefused]

/-- An instruction other than INIT leaves the configuration registers, and so does an INIT that is not admitted (R32). -/
theorem exec_configuration {i : Instr} {s t : State} (h : exec i s = .next t) :
    (t.cfgN = s.cfgN ∧ t.cfgId = s.cfgId ∧ t.cfgS = s.cfgS) ∨
    ∃ n id sh, i = .init n id sh ∧ s.busy = false ∧ t.curOp = .init ∧ t.cfgN = n ∧ t.cfgId = id ∧ t.cfgS = sh := by
  have same {u : State} (hu : s.SameSetting u) : u.cfgN = s.cfgN ∧ u.cfgId = s.cfgId ∧ u.cfgS = s.cfgS :=
    have ⟨_, hn, hi, hs, _, _⟩ := hu
    ⟨hn, hi, hs⟩
  cases exec_cases h with
  | refused _ e | abort _ e | abortIdle e => rw [e]; exact .inl ⟨rfl, rfl, rfl⟩
  | init n id sh hb e =>
    rw [State.startOp_inside _ _ _ (initSeq_ne_nil s.width n id sh)] at e
    rw [e]
    exact .inr ⟨n, id, sh, rfl, hb, rfl, rfl, rfl, rfl⟩
  | display _ _ _ _ e | seek _ _ e => rw [e]; exact .inl (same (s.startOp_sameSetting _ _ _))
  | write bytes _ _ e =>
    rw [e]
    exact .inl (same (State.startOp_sameSetting { s with wrLen := BitVec.ofNat 12 bytes.length } _ _ _))
  | transfer _ ops _ e => rw [e]; exact .inl (same (s.microSteps_sameSetting ops.length))

/-! ## The packet of an INIT -/

theorem oneWord_eq_ok {reserved : Bool} {payload : List Byte} {i j : Instr} (h : oneWord reserved payload i = .ok j) :
    reserved = false ∧ payload = [] ∧ i = j := by
  unfold oneWord at h
  split at h
  · cases h
  split at h <;> cases h
  simp_all

/-- A word is INIT's opcode, nine zeros and the three low bits, when its other bits say so (R82, R88). -/
theorem init_word {q : Word} (hop : (q.extractLsb' 12 4).toNat = 1) (hres : q.extractLsb' 3 9 = 0#9) :
    0b0001#4 ++ 0#9 ++ fieldBit (q.getLsbD 2) ++ fieldBit (q.getLsbD 1) ++ fieldBit (q.getLsbD 0) = q := by
  have bit (k : Nat) : (fieldBit (q.getLsbD k)).toNat = q.toNat / 2 ^ k % 2 := by
    rw [fieldBit, BitVec.toNat_ofBool, BitVec.getLsbD, Nat.toNat_testBit]
  rw [extract_toNat] at hop
  rw [extract_eq_zero_iff] at hres
  apply BitVec.eq_of_toNat_eq
  simp only [append_toNat, bit, BitVec.toNat_ofNat]
  have := q.isLt
  omega

theorem encode_init_of_decode {p : Packet} {n id sh : Bool} (h : decode p = .ok (.init n id sh)) :
    encode (.init n id sh) = p := by
  cases p with
  | request q payload =>
    simp only [decode, decodeRequest] at h
    split at h
    · rename_i hop
      obtain ⟨hres, rfl, hi⟩ := oneWord_eq_ok h
      cases hi
      rw [encode, init_word hop (by simpa using hres)]
    · cases (oneWord_eq_ok h).2.2
    · cases (oneWord_eq_ok h).2.2
    · split at h <;> cases h
    · cases (oneWord_eq_ok h).2.2
    · cases h
  | busByte b =>
    simp only [decode, decodeByte] at h
    split_ifs at h <;> cases h
  | busNibble b =>
    simp only [decode, decodeNibble] at h
    split_ifs at h <;> cases h

end Sys2Proof.Machine
end

section
/-! SUPPORT. What the block does with an operation, as an observer reads it off the trace and the response log. -/

namespace Sys2Proof.Machine

/-- How far the block has come from `s` to `t` with the operation in progress in `s`, and what it has recorded on the way. -/
inductive State.Progress (s t : State) : Prop where
  /-- It goes on: every outcome was ok, and nothing was answered. -/
  | goesOn (more : List TraceEntry) (trace : t.trace = s.trace ++ more) (outcomes : ∀ x ∈ more, x.outcome = .ok)
      (busy : t.busy = true) (respLog : t.respLog = s.respLog)
  /-- It completed: every outcome was ok, and the response is OK (R34). -/
  | completed (more : List TraceEntry) (trace : t.trace = s.trace ++ more) (outcomes : ∀ x ∈ more, x.outcome = .ok)
      (idle : t.busy = false) (c : Count) (respLog : t.respLog = s.respLog ++ [.ok c])
  /-- It failed: a micro-operation was answered with the error of the response (R194). -/
  | failed (more : List TraceEntry) (trace : t.trace = s.trace ++ more) (e : PinErr)
      (outcomes : ∃ x ∈ more, x.outcome = .err e) (idle : t.busy = false) (respLog : t.respLog = s.respLog ++ [.err e])

theorem State.microStep_progress {s : State} (hb : s.busy = true) : s.Progress s.microStep := by
  obtain ⟨more, ht, ⟨hb', hr, -, hok⟩ | ⟨hi, ⟨c, hr⟩, hok⟩ | ⟨hi, e, hr, he⟩⟩ := s.microStep_ends hb
  · exact .goesOn more ht hok hb' hr
  · exact .completed more ht hok hi c hr
  · exact .failed more ht e he hi hr

/-- Progress that goes on, followed by more of it. -/
theorem State.Progress.trans {s u t : State} (h : s.Progress u) (hb : u.busy = true) (h' : u.Progress t) :
    s.Progress t := by
  obtain ⟨more, ht, hok, -, hr⟩ | ⟨_, _, _, hi, _, _⟩ | ⟨_, _, _, _, hi, _⟩ := h
  · have both {more'} (ht' : t.trace = u.trace ++ more') : t.trace = s.trace ++ (more ++ more') := by
      rw [ht', ht, List.append_assoc]
    have oks {more' : List TraceEntry} (hok' : ∀ x ∈ more', x.outcome = .ok) : ∀ x ∈ more ++ more', x.outcome = .ok :=
      List.forall_mem_append.2 ⟨hok, hok'⟩
    obtain ⟨_, ht', hok', hb', hr'⟩ | ⟨_, ht', hok', hi, c, hr'⟩ | ⟨_, ht', e, ⟨x, hx, he⟩, hi, hr'⟩ := h'
    · exact .goesOn _ (both ht') (oks hok') hb' (hr'.trans hr)
    · exact .completed _ (both ht') (oks hok') hi c (by rw [hr', hr])
    · exact .failed _ (both ht') e ⟨x, List.mem_append_right _ hx, he⟩ hi (by rw [hr', hr])
  · rw [hi] at hb; cases hb
  · rw [hi] at hb; cases hb

theorem State.microSteps_progress {s : State} (hb : s.busy = true) (n : Nat) : s.Progress (s.microSteps n) :=
  microSteps_induct s (P := s.Progress) (fun _ hu h => h.trans hu (microStep_progress hu)) n
    (.goesOn [] (by simp) (by simp) hb rfl)

/-- Progress speaks of the trace and the response log only. -/
theorem State.Progress.of_withInbox {s t : State} {box : List Arrival}
    (h : ({ s with inbox := box } : State).Progress t) : s.Progress t := by
  obtain ⟨more, ht, hok, hb, hr⟩ | ⟨more, ht, hok, hi, c, hr⟩ | ⟨more, ht, e, he, hi, hr⟩ := h
  · exact .goesOn more ht hok hb hr
  · exact .completed more ht hok hi c hr
  · exact .failed more ht e he hi hr

/-- An answer is given when the operation is over, and then one. -/
theorem State.Progress.respLog {s t : State} (h : s.Progress t) :
    (t.busy = true ∧ t.respLog = s.respLog) ∨ (t.busy = false ∧ ∃ r, t.respLog = s.respLog ++ [r]) := by
  obtain ⟨_, _, _, hb, hr⟩ | ⟨_, _, _, hi, c, hr⟩ | ⟨_, _, e, _, hi, hr⟩ := h
  · exact .inl ⟨hb, hr⟩
  · exact .inr ⟨hi, _, hr⟩
  · exact .inr ⟨hi, _, hr⟩

/-! ## Responses of an instruction and of a step -/

/-- The response log is as it was, or it has one response more and no operation is in progress (R37). -/
def State.RespondsAtMostOnce (s t : State) : Prop :=
  t.respLog = s.respLog ∨ ∃ r, t.respLog = s.respLog ++ [r] ∧ t.busy = false

theorem State.Progress.respondsAtMostOnce {s t : State} (h : s.Progress t) : s.RespondsAtMostOnce t :=
  h.respLog.imp (fun h => h.2) fun ⟨hi, r, hr⟩ => ⟨r, hr, hi⟩

theorem State.startOp_respondsAtMostOnce (s : State) (op : CurOp) (ph : Phase) (ops : List MicroOp) :
    s.RespondsAtMostOnce (s.startOp op ph ops) := by
  by_cases h : ops = []
  · subst h
    rw [startOp_nil]
    exact .inr ⟨_, rfl, rfl⟩
  · rw [startOp_inside s op ph h]
    exact .inl rfl

theorem State.isDue_busy {s : State} {ops : List MicroOp} (h : s.isDue ops = true) : s.busy = true := by
  rw [isDue, Bool.and_eq_true] at h
  exact h.1

theorem exec_respondsAtMostOnce {i : Instr} {s t : State} (h : exec i s = .next t) : s.RespondsAtMostOnce t := by
  cases exec_cases h with
  | refused _ e | abort _ e | abortIdle e => rw [e]; exact .inl rfl
  | init _ _ _ _ e | display _ _ _ _ e | seek _ _ e | write _ _ _ e =>
    rw [e]
    exact State.startOp_respondsAtMostOnce _ _ _ _
  | transfer _ ops due e =>
    rw [e]
    exact (State.microSteps_progress (State.isDue_busy due) ops.length).respondsAtMostOnce

/-- The block's turn inside an operation is a micro-operation of it. -/
theorem tickInbox_microStep_progress {s : State} (hb : s.busy = true) : s.Progress s.tickInbox.microStep := by
  obtain ⟨box, hx⟩ := tickInbox_eq s
  rw [hx]
  exact .of_withInbox (State.microStep_progress hb)

/-- What ends an operation: an ABORT that takes effect, which answers and records nothing (R166), or the block's progress. -/
theorem exec_ends {i : Instr} {s t : State} (h : exec i s = .next t) (hb : s.busy = true) (hi : t.busy = false) :
    (t.respLog = s.respLog ∧ t.trace = s.trace) ∨ s.Progress t := by
  have notReady : s.phase ≠ .ready := fun hp => by simp [State.busy, hp] at hb
  cases exec_cases h with
  | refused _ e | abortIdle e => rw [e] at hi; exact absurd (hb.symm.trans hi) (by decide)
  | init _ _ _ adm _ => exact absurd (hb.symm.trans adm) (by decide)
  | display _ _ _ adm _ | seek _ adm _ | write _ _ adm _ => exact absurd adm notReady
  | abort _ e => rw [e]; exact .inl ⟨rfl, rfl⟩
  | transfer _ ops _ e => rw [e]; exact .inr (State.microSteps_progress hb ops.length)

theorem step_ends {s t : State} (h : step s = .next t) (hb : s.busy = true) (hi : t.busy = false) :
    (t.respLog = s.respLog ∧ t.trace = s.trace) ∨ s.Progress t := by
  obtain ⟨-, ⟨p, u, i, hd, -, he⟩ | ⟨p, u, hd, rfl⟩ | ⟨-, -, rfl⟩ | ⟨-, hb', -⟩⟩ := step_cases h
  · obtain ⟨_, rest, -, -, -, rfl⟩ := takeDue_some hd
    exact (exec_ends he hb hi).imp_right .of_withInbox
  · obtain ⟨_, rest, -, -, -, rfl⟩ := takeDue_some hd
    exact absurd (hb.symm.trans hi) (by decide)
  · exact .inr (tickInbox_microStep_progress hb)
  · exact absurd (hb.symm.trans hb') (by decide)

/-! ## The controller's view of a step that ends an operation -/

theorem stepEvents_eq {s t : State} {more : List TraceEntry} (h : t.trace = s.trace ++ more) :
    stepEvents s t = more.map .performed ++ endEvents s t := by
  rw [stepEvents, h, List.drop_left]

theorem endEvents_aborted {s t : State} (hb : s.busy = true) (hi : t.busy = false) (hr : t.respLog = s.respLog) :
    endEvents s t = [.aborted] := by
  simp [endEvents, hb, hi, hr]

theorem endEvents_completed {s t : State} (hb : s.busy = true) (hi : t.busy = false) {c : Count}
    (hr : t.respLog = s.respLog ++ [.ok c]) : endEvents s t = if s.curOp = .init then [.initDone] else [] := by
  cases h : s.curOp <;> simp [endEvents, hb, hi, hr, h]

theorem endEvents_failed {s t : State} (hb : s.busy = true) (hi : t.busy = false) {e : PinErr}
    (hr : t.respLog = s.respLog ++ [.err e]) : endEvents s t = [] := by
  cases h : s.curOp <;> simp [endEvents, hb, hi, hr, h]

/-- While the controller is lost and no INIT completes, it stays lost and receives nothing but unspecified items. -/
theorem ControllerView.after_keepsLost (pf : Platform) (w : BusWidth) (o : OutLines) {v : ControllerView}
    {events : List ControllerEvent} (h : v.lost = true) (hn : .initDone ∉ events) :
    (v.after pf w o events).lost = true ∧
    ∃ k, (v.after pf w o events).items = v.items ++ List.replicate k .unspecified := by
  induction events generalizing v o with
  | nil => exact ⟨under_lost pf v h, 0, by simp⟩
  | cons ev rest ih =>
    have hrest : .initDone ∉ rest := fun hm => hn (List.mem_cons_of_mem _ hm)
    cases ev with
    | performed t =>
      obtain ⟨hl, k, hk⟩ := onEntry_keepsLost w o (v.under pf) t (under_lost pf v h)
      obtain ⟨hl', m, hm⟩ := ih (t.drive o) hl hrest
      rw [after_performed]
      exact ⟨hl', k + m, by rw [hm, hk, under_items, List.append_assoc, List.replicate_append_replicate]⟩
    | aborted => exact ih o rfl hrest
    | initDone => exact absurd List.mem_cons_self hn

/-- On a platform that meets its duties, whether the controller is lost after a step that ends an operation. -/
theorem ControllerView.afterStep_lost_iff {pf : Platform} {s t : State} (v : ControllerView) (hp : pf.dutiesMet = true)
    (h : step s = .next t) (hb : s.busy = true) (hi : t.busy = false) :
    (v.afterStep pf s t).lost = true ↔
      t.respLog = s.respLog ∨ (∃ e, t.respLog = s.respLog ++ [.err e]) ∨ (v.lost = true ∧ s.curOp ≠ .init) := by
  rw [afterStep]
  obtain ⟨hr, ht⟩ | ⟨-, -, -, hb', -⟩ | ⟨more, ht, hok, -, c, hr⟩ | ⟨more, ht, e, ⟨x, hx, he⟩, -, hr⟩ :=
    step_ends h hb hi
  · have ht' : t.trace = s.trace ++ [] := by rw [ht, List.append_nil]
    rw [stepEvents_eq ht', endEvents_aborted hb hi hr]
    simp [hp, hr]
  · exact absurd (hb'.symm.trans hi) (by decide)
  · obtain ⟨u, o', hu, hl⟩ := after_performed_lost pf s.width s.out v hp more (endEvents s t)
    have noFailure : ¬ ∃ x ∈ more, x.outcome ≠ .ok := fun ⟨x, hx, hne⟩ => hne (hok x hx)
    rw [stepEvents_eq ht, hu, endEvents_completed hb hi hr]
    by_cases hc : s.curOp = .init
    · simp [hc, hp, hr]
    · simp [hc, hp, hr, hl, noFailure]
  · obtain ⟨u, o', hu, hl⟩ := after_performed_lost pf s.width s.out v hp more (endEvents s t)
    have hlost : u.lost = true := hl.2 (.inr ⟨x, hx, by simp [he]⟩)
    rw [stepEvents_eq ht, hu, endEvents_failed hb hi hr]
    simp [hp, hr, hlost]

end Sys2Proof.Machine
end

section
/-! SUPPORT. The block reads neither its lines, nor the trace, nor the response log (R37, R128, R206). -/

namespace Sys2Proof.Machine

/-- The two states differ in what an observer sees only: the lines, the trace, the response log. -/
def State.SameButObserved (s u : State) : Prop := ∃ o tr rl, u = { s with out := o, trace := tr, respLog := rl }

/-- The two outcomes are of one kind, for one reason, and their next states differ in the observation only. -/
inductive StepsAlike : Host.Outcome State Fault Refusal → Host.Outcome State Fault Refusal → Prop where
  | next {s u : State} (h : s.SameButObserved u) : StepsAlike (.next s) (.next u)
  | fault (r : Fault) : StepsAlike (.fault r) (.fault r)
  | refused (r : Refusal) : StepsAlike (.refused r) (.refused r)

namespace State.SameButObserved

variable {s u : State}

theorem setLine (h : s.SameButObserved u) (p : Line) (l : Level) : (s.setLine p l).SameButObserved (u.setLine p l) := by
  obtain ⟨o, tr, rl, rfl⟩ := h
  exact ⟨_, _, _, rfl⟩

theorem record (h : s.SameButObserved u) (op : MicroOp) (a : PinAnswer) :
    (s.record op a).SameButObserved (u.record op a) := by
  obtain ⟨o, tr, rl, rfl⟩ := h
  exact ⟨_, _, _, rfl⟩

theorem respond (h : s.SameButObserved u) (r r' : Response) : (s.respond r).SameButObserved (u.respond r') := by
  obtain ⟨o, tr, rl, rfl⟩ := h
  exact ⟨_, _, _, rfl⟩

theorem endOp (h : s.SameButObserved u) (ph : Phase) : (s.endOp ph).SameButObserved (u.endOp ph) := by
  obtain ⟨o, tr, rl, rfl⟩ := h
  exact ⟨_, _, _, rfl⟩

theorem markRefused (h : s.SameButObserved u) : s.markRefused.SameButObserved u.markRefused := by
  obtain ⟨o, tr, rl, rfl⟩ := h
  exact ⟨_, _, _, rfl⟩

theorem afterAnswer (h : s.SameButObserved u) : s.afterAnswer.SameButObserved u.afterAnswer := by
  obtain ⟨o, tr, rl, rfl⟩ := h
  unfold State.afterAnswer
  cases hs : s.answers <;> exact ⟨o, tr, rl, by simp⟩

theorem complete (h : s.SameButObserved u) : s.complete.SameButObserved u.complete := (h.endOp .ready).respond _ _

theorem completeAtEnd (h : s.SameButObserved u) : s.completeAtEnd.SameButObserved u.completeAtEnd := by
  have hc := h.complete
  obtain ⟨o, tr, rl, rfl⟩ := h
  by_cases e : s.upc = s.seq.length
  · rwa [completeAtEnd_end s e, completeAtEnd_end { s with out := o, trace := tr, respLog := rl } e]
  · rw [completeAtEnd_inside s e, completeAtEnd_inside { s with out := o, trace := tr, respLog := rl } e]
    exact ⟨o, tr, rl, rfl⟩

theorem startOp (h : s.SameButObserved u) (op : CurOp) (ph : Phase) (ops : List MicroOp) :
    (s.startOp op ph ops).SameButObserved (u.startOp op ph ops) := by
  obtain ⟨o, tr, rl, rfl⟩ := h
  exact completeAtEnd ⟨o, tr, rl, rfl⟩

theorem advance (h : s.SameButObserved u) : s.advance.SameButObserved u.advance := by
  obtain ⟨o, tr, rl, rfl⟩ := h
  exact completeAtEnd ⟨o, tr, rl, rfl⟩

theorem performPinWrite (h : s.SameButObserved u) (p : Line) (l : Bool) :
    (s.performPinWrite p l).SameButObserved (u.performPinWrite p l) := by
  have ha := h.afterAnswer
  have hp : u.pinAnswer = s.pinAnswer := by obtain ⟨o, tr, rl, rfl⟩ := h; rfl
  unfold State.performPinWrite
  rw [hp]
  cases s.pinAnswer with
  | ok => exact ((ha.record _ _).setLine _ _).advance
  | err e =>
    have hc : u.curOp = s.curOp := by obtain ⟨o, tr, rl, rfl⟩ := h; rfl
    simp only [raisePeripheralError, record_curOp, afterAnswer_curOp, hc]
    exact (((ha.record _ _).setLine _ _).endOp _).respond _ _

theorem microStep (h : s.SameButObserved u) : s.microStep.SameButObserved u.microStep := by
  have hn : u.nextOp = s.nextOp := by obtain ⟨o, tr, rl, rfl⟩ := h; rfl
  unfold State.microStep
  rw [hn]
  cases s.nextOp with
  | none => exact h.complete
  | some op =>
    cases op with
    | pinWrite p l => exact h.performPinWrite p l
    | wait d => exact (h.record (.wait d) .ok).advance

theorem microSteps (h : s.SameButObserved u) (n : Nat) : (s.microSteps n).SameButObserved (u.microSteps n) := by
  induction n generalizing s u with
  | zero => exact h
  | succ n ih =>
    have hb : u.busy = s.busy := by obtain ⟨o, tr, rl, rfl⟩ := h; rfl
    unfold State.microSteps
    rw [hb]
    split
    · exact ih h.microStep
    · exact h

/-! ## Instructions and steps -/

theorem transmit (h : s.SameButObserved u) (forms : List (List MicroOp)) :
    StepsAlike (s.transmit forms) (u.transmit forms) := by
  have hd : u.isDue = s.isDue := by obtain ⟨o, tr, rl, rfl⟩ := h; rfl
  unfold State.transmit
  rw [hd]
  split
  · exact .next (h.microSteps _)
  · exact .refused _

theorem command (h : s.SameButObserved u) (op : CurOp) (len : Count) (ops : List MicroOp) :
    (s.command op len ops).SameButObserved (u.command op len ops) := by
  have hm := h.markRefused
  obtain ⟨o, tr, rl, rfl⟩ := h
  unfold State.command
  rw [show ({ s with out := o, trace := tr, respLog := rl } : State).admitsCommand = s.admitsCommand from rfl]
  split
  · exact startOp ⟨o, tr, rl, rfl⟩ op .opSeq ops
  · exact hm

theorem exec (h : s.SameButObserved u) (i : Instr) : StepsAlike (exec i s) (exec i u) := by
  obtain ⟨o, tr, rl, rfl⟩ := h
  have h : s.SameButObserved { s with out := o, trace := tr, respLog := rl } := ⟨o, tr, rl, rfl⟩
  cases i with
  | init n id sh =>
    simp only [Machine.exec, execInit]
    rw [show ({ s with out := o, trace := tr, respLog := rl } : State).admitsInit = s.admitsInit from rfl]
    split
    · exact .next (startOp ⟨o, tr, rl, rfl⟩ .init .initSeq _)
    · exact .next h.markRefused
  | setDisplayControl d c b => exact .next (h.command _ _ _)
  | seek a => exact .next (h.command _ _ _)
  | write bytes =>
    simp only [Machine.exec, execWrite]
    split
    · exact .next (h.command _ _ _)
    · exact .refused _
  | abort =>
    simp only [Machine.exec, execAbort]
    rw [show ({ s with out := o, trace := tr, respLog := rl } : State).suspended = s.suspended from rfl]
    split
    · exact .next (h.endOp _)
    · exact .next h
  | busClearDisplay | busEntryModeSet | busDisplayControl | busFunctionSet | busSetDdramAddress | busWriteData
  | busWakeNibble | busSwitchNibble => exact h.transmit _

theorem blockTurn (h : s.SameButObserved u) : StepsAlike s.blockTurn u.blockTurn := by
  obtain ⟨o, tr, rl, rfl⟩ := h
  have h : s.SameButObserved { s with out := o, trace := tr, respLog := rl } := ⟨o, tr, rl, rfl⟩
  unfold State.blockTurn
  rw [show ({ s with out := o, trace := tr, respLog := rl } : State).busy = s.busy from rfl,
    show ({ s with out := o, trace := tr, respLog := rl } : State).nextOp = s.nextOp from rfl]
  split
  · split
    · exact .next h.microStep
    · exact .fault _
  · exact .next h

theorem rejectPacket (h : s.SameButObserved u) (p : Packet) : StepsAlike (s.rejectPacket p) (u.rejectPacket p) := by
  cases p with
  | request q payload => exact .next h.markRefused
  | busByte b | busNibble b => exact .refused _

theorem tickInbox (h : s.SameButObserved u) : s.tickInbox.SameButObserved u.tickInbox := by
  obtain ⟨o, tr, rl, rfl⟩ := h
  cases hi : s.inbox <;> exact ⟨o, tr, rl, by simp [State.tickInbox, hi]⟩

/-- The same packet is due in both, if one is. -/
theorem takeDue (h : s.SameButObserved u) :
    (s.takeDue = none ∧ u.takeDue = none) ∨
    ∃ p s' u', s.takeDue = some (p, s') ∧ u.takeDue = some (p, u') ∧ s'.SameButObserved u' := by
  obtain ⟨o, tr, rl, rfl⟩ := h
  cases hs : s.takeDue with
  | none =>
    have hn := takeDue_eq_none_iff.1 hs
    exact .inl ⟨rfl, takeDue_eq_none_iff.2 hn⟩
  | some x =>
    obtain ⟨p, s'⟩ := x
    obtain ⟨rest, hd, rfl⟩ := takeDue_eq_some_iff.1 hs
    exact .inr ⟨p, _, _, rfl, takeDue_eq_some_iff.2 ⟨rest, hd, rfl⟩, o, tr, rl, rfl⟩

theorem step (h : s.SameButObserved u) : StepsAlike (step s) (step u) := by
  have hr : u.refused = s.refused := by obtain ⟨o, tr, rl, rfl⟩ := h; rfl
  unfold Machine.step
  rw [hr]
  split
  · exact .refused _
  obtain ⟨hs, hu⟩ | ⟨p, s', u', hs, hu, h'⟩ := h.takeDue <;> simp only [hs, hu]
  · exact h.tickInbox.blockTurn
  · split
    · exact h'.exec _
    · exact h'.rejectPacket p

end State.SameButObserved

namespace StepsAlike

variable {x : Host.Outcome State Fault Refusal}

theorem of_next {t : State} (h : StepsAlike (.next t) x) : ∃ u, x = .next u ∧ t.SameButObserved u := by
  cases h with
  | next h => exact ⟨_, rfl, h⟩

theorem of_fault {r : Fault} (h : StepsAlike (.fault r) x) : x = .fault r := by cases h; rfl

theorem of_refused {r : Refusal} (h : StepsAlike (.refused r) x) : x = .refused r := by cases h; rfl

end StepsAlike

end Sys2Proof.Machine
end

section
/-! The obligations of 10_state.md. -/

namespace Sys2Proof.Machine

/-- Settles O39: an admission starts an expansion that fits the bus, a micro-operation moves one index further, and what ends
an operation leaves the block at rest. -/
theorem stepKeepsCoherence : Obligations.StepKeepsCoherence := by
  unfold Obligations.StepKeepsCoherence
  intro s t hs h
  refine step_induct (P := State.Coherent) ?inbox ?mark ?init ?display ?seek ?write ?abort ?micro hs h
  case inbox => exact fun s _ h => { h with }
  case mark => exact fun s h => { h with }
  case init =>
    intro s n id sh hb h
    exact State.startOp_coherent h.dataLines (by decide) rfl (fun _ => (h.atRest hb).wrLen) (initSeq_fits s.width n id sh)
  case display =>
    intro s d c b hr h
    exact State.startOp_coherent h.dataLines (by decide) rfl (fun _ => (h.atRest_of_ready hr).wrLen)
      (sendByte_fits s.width _ _ _)
  case seek =>
    intro s a hr h
    exact State.startOp_coherent h.dataLines (by decide) rfl (fun _ => (h.atRest_of_ready hr).wrLen)
      (sendByte_fits s.width _ _ _)
  case write =>
    intro s bytes _ _ h
    exact State.startOp_coherent h.dataLines (by decide) rfl (fun hw => absurd rfl hw) (writeSeq_fits s.width bytes)
  case abort => exact fun s _ h => (s.endOp_atRest s.curOp).coherent h.dataLines
  case micro => exact fun s hb h => State.microStep_coherent hb h

/-- Settles O40: an admission sets the sequence to the expansion, and an operation that goes on keeps it, with all it was
made from. -/
theorem stepKeepsTheExpansion : Obligations.StepKeepsTheExpansion := by
  unfold Obligations.StepKeepsTheExpansion
  intro s t hs h
  refine step_induct (P := State.SeqIsExpansion) ?inbox ?mark ?init ?display ?seek ?write ?abort ?micro hs h
  case inbox => exact fun _ _ h => h
  case mark => exact fun _ h => h
  case init =>
    intro s n id sh _ _
    rw [State.startOp_inside _ _ _ (initSeq_ne_nil s.width n id sh)]
    exact rfl
  case display =>
    intro s d c b _ _
    rw [State.startOp_inside _ _ _ (displayControlSeq_ne_nil s.width d c b)]
    exact ⟨d, c, b, rfl⟩
  case seek =>
    intro s a _ _
    rw [State.startOp_inside _ _ _ (seekSeq_ne_nil s.width a)]
    exact ⟨a, rfl⟩
  case write =>
    intro s bytes hl _ _
    by_cases hne : writeSeq s.width bytes = []
    · rw [hne]; exact (State.startOp_nil_atRest _ _ _).seqIsExpansion
    · rw [State.startOp_inside _ _ _ hne]; exact ⟨bytes, hl, rfl, rfl⟩
  case abort => exact fun s _ _ => (s.endOp_atRest s.curOp).seqIsExpansion
  case micro => exact fun _ _ h => State.microStep_seqIsExpansion h

/-- Settles O43: only the block's turn can fault, and every micro-operation of a coherent state is on a line the bus has. -/
theorem coherentStepsNeverFault : Obligations.CoherentStepsNeverFault := by
  unfold Obligations.CoherentStepsNeverFault
  intro s r hc h
  have hturn := step_fault h
  obtain ⟨box, hx⟩ := tickInbox_eq s
  rw [hx, State.blockTurn_eq (s := { s with inbox := box }) hc.opsFit] at hturn
  cases hturn

/-- Settles O45: no operation writes `st.refused` but `markRefused`, which is all that a request that is not admitted does. -/
theorem refusalIsSticky : Obligations.RefusalIsSticky := by
  unfold Obligations.RefusalIsSticky
  refine ⟨fun i s t => exec_keepsRefused, fun s hr => ?_, fun n id sh s t hb h => ?_, fun i s t hp hi h => ?_,
    fun s q payload rest r hr hd hp => ?_⟩
  · simp [step, hr]
  · rw [exec_init_busy hb] at h
    cases h
    rfl
  · obtain ⟨d, c, b, rfl⟩ | ⟨a, rfl⟩ | ⟨bytes, rfl⟩ := hi
    · simp only [exec, execSetDisplayControl, State.command_notReady hp] at h
      cases h
      rfl
    · simp only [exec, execSeek, State.command_notReady hp] at h
      cases h
      rfl
    · simp only [exec, execWrite, State.command_notReady hp] at h
      split at h <;> cases h
      rfl
  · exact step_rejectedRequest hr hd hp

/-- Settles O46: nothing that a step is made of writes the width. -/
theorem widthNeverChanges : Obligations.WidthNeverChanges := by
  unfold Obligations.WidthNeverChanges
  intro s t h
  refine step_induct (P := fun u => u.width = s.width) ?inbox ?mark ?init ?display ?seek ?write ?abort ?micro rfl h
  case inbox => exact fun _ _ hw => hw
  case mark => exact fun _ hw => hw
  case init => exact fun _ _ _ _ _ hw => (State.startOp_width _ _ _ _).trans hw
  case display => exact fun _ _ _ _ _ hw => (State.startOp_width _ _ _ _).trans hw
  case seek => exact fun _ _ _ hw => (State.startOp_width _ _ _ _).trans hw
  case write => exact fun _ _ _ _ hw => (State.startOp_width _ _ _ _).trans hw
  case abort => exact fun _ _ hw => hw
  case micro => exact fun u _ hw => u.microStep_sameSetting.1.trans hw

/-- Settles O47: of what a step can do only an admitted INIT writes the configuration, and its packet is the one that is due. -/
theorem configurationIsInits : Obligations.ConfigurationIsInits := by
  unfold Obligations.ConfigurationIsInits
  intro s t h
  obtain ⟨-, ⟨p, u, i, hd, hp, he⟩ | ⟨p, u, hd, rfl⟩ | ⟨-, -, rfl⟩ | ⟨-, -, rfl⟩⟩ := step_cases h
  · obtain ⟨rest, hdue, rfl⟩ := takeDue_eq_some_iff.1 hd
    obtain hsame | ⟨n, id, sh, rfl, hb, hop, hcfg⟩ := exec_configuration he
    · exact .inl hsame
    · rw [← encode_init_of_decode hp] at hdue
      exact .inr ⟨n, id, sh, rest, hdue, hb, hop, hcfg⟩
  · obtain ⟨rest, -, rfl⟩ := takeDue_eq_some_iff.1 hd
    exact .inl ⟨rfl, rfl, rfl⟩
  · obtain ⟨box, hx⟩ := tickInbox_eq s
    obtain ⟨-, hn, hi, hs, -, -⟩ := s.tickInbox.microStep_sameSetting
    exact .inl ⟨by rw [hn, hx], by rw [hi, hx], by rw [hs, hx]⟩
  · obtain ⟨box, hx⟩ := tickInbox_eq s
    rw [hx]
    exact .inl ⟨rfl, rfl, rfl⟩

/-- Settles O48: an operation answers when it is over; that the block's own turn ends one only with a response is the same
fact about its micro-operation. -/
theorem oneResponsePerOperation : Obligations.OneResponsePerOperation := by
  unfold Obligations.OneResponsePerOperation
  intro s t h
  obtain ⟨-, ⟨p, u, i, hd, -, he⟩ | ⟨p, u, hd, rfl⟩ | ⟨-, hb, rfl⟩ | ⟨-, hb, rfl⟩⟩ := step_cases h
  · obtain ⟨rest, hdue, rfl⟩ := takeDue_eq_some_iff.1 hd
    have hresp := exec_respondsAtMostOnce he
    exact ⟨hresp, fun hn => absurd ⟨p, rest, hdue⟩ hn⟩
  · obtain ⟨rest, hdue, rfl⟩ := takeDue_eq_some_iff.1 hd
    exact ⟨.inl rfl, fun hn => absurd ⟨p, rest, hdue⟩ hn⟩
  · have hturn := tickInbox_microStep_progress hb
    refine ⟨hturn.respondsAtMostOnce, fun _ _ hi => ?_⟩
    obtain ⟨hb', -⟩ | ⟨-, hr⟩ := hturn.respLog
    · exact absurd (hb'.symm.trans hi) (by decide)
    · exact hr
  · obtain ⟨box, hx⟩ := tickInbox_eq s
    rw [hx]
    exact ⟨.inl rfl, fun _ hb' => absurd (hb'.symm.trans hb) (by decide)⟩

/-- Settles O50: every update of the state, and so every step, does alike with two states that differ in the observation. -/
theorem blockReadsNoObservation : Obligations.BlockReadsNoObservation := by
  unfold Obligations.BlockReadsNoObservation
  intro s o tr rl
  have alike : StepsAlike (step s) (step { s with out := o, trace := tr, respLog := rl }) :=
    State.SameButObserved.step ⟨o, tr, rl, rfl⟩
  refine ⟨fun t h => ?_, fun r h => ?_, fun r h => ?_⟩ <;> rw [h] at alike
  · obtain ⟨u, hu, o', tr', rl', rfl⟩ := alike.of_next
    exact ⟨_, hu, rfl⟩
  · exact alike.of_fault
  · exact alike.of_refused

/-- Settles O58: the view's rules for each event, and how a step ends an operation. -/
theorem controllerIsLostUntilInit : Obligations.ControllerIsLostUntilInit := by
  unfold Obligations.ControllerIsLostUntilInit
  refine ⟨fun pf w o v p l e => ⟨?_, ?_⟩, fun pf w o v events hl hn => ?_, fun pf s t v _ h hb hi => ?_⟩
  · exact ControllerView.under_lost pf _ (ControllerView.onEntry_err w o (v.under pf) (.pinWrite p l) e)
  · exact ControllerView.under_lost pf _ v.lose_lost
  · obtain ⟨hlost, hitems⟩ := ControllerView.after_keepsLost pf w o hl hn
    exact ⟨hlost, if_pos hlost, hitems⟩
  · cases hp : pf.dutiesMet with
    | false => simp [ControllerView.afterStep, (v.after_unmet pf s.width s.out hp _).1]
    | true => simp [v.afterStep_lost_iff hp h hb hi]

/-- Settles O37: each is the value `State.create` gives the field. -/
theorem resetValues : Obligations.ResetValues := by
  unfold Obligations.ResetValues
  intro w
  exact ⟨rfl, rfl, rfl, rfl, rfl, rfl, rfl, rfl, rfl, rfl, rfl, rfl⟩

/-- Settles O38: a created block is at rest, and its trace is empty. -/
theorem resetMeetsTheInvariants : Obligations.ResetMeetsTheInvariants := by
  unfold Obligations.ResetMeetsTheInvariants
  intro w
  have rest : (State.create w).AtRest := ⟨rfl, rfl, rfl, rfl, rfl⟩
  exact ⟨rest.coherent (undriven_length w), rest.seqIsExpansion, rfl, rfl⟩

end Sys2Proof.Machine
end

section
/-! SUPPORT. What the framer's lists and an INIT latch when every micro-operation completes ok (R74, R120 to R125, R150). -/

namespace Sys2Proof.Machine

/-! ## Lists of entries -/

theorem allOk_append (ops more : List MicroOp) : allOk (ops ++ more) = allOk ops ++ allOk more := List.map_append

theorem allOk_cons (op : MicroOp) (ops : List MicroOp) : allOk (op :: ops) = ⟨op, .ok⟩ :: allOk ops := rfl

theorem latchedFrom_append (o : OutLines) (ts more : List TraceEntry) :
    latchedFrom o (ts ++ more) = latchedFrom o ts ++ latchedFrom (ts.foldl TraceEntry.drive o) more := by
  induction ts generalizing o with
  | nil => rfl
  | cons t ts ih => simp [latchedFrom, ih]

@[simp] theorem foldl_drive_length (o : OutLines) (ts : List TraceEntry) :
    (ts.foldl TraceEntry.drive o).d.length = o.d.length := by
  induction ts generalizing o with
  | nil => rfl
  | cons t ts ih => rw [List.foldl_cons, ih, drive_length]

/-! ## The primitives -/

/-- Presenting from line `D[j]` on: the lines below keep their levels, the others get the bits of `v` from bit j up. -/
theorem drive_presentFrom {k : Nat} (v : BitVec k) (e rs : Level) (below others : List Level) :
    (allOk (presentFrom v below.length others.length)).foldl TraceEntry.drive ⟨e, rs, below ++ others⟩ =
      ⟨e, rs, below ++ (List.range' below.length others.length).map fun i => .ofBool (v.getLsbD i)⟩ := by
  induction others generalizing below with
  | nil => rfl
  | cons x others ih =>
    have hset : TraceEntry.drive ⟨e, rs, below ++ x :: others⟩ ⟨.pinWrite (.d below.length) (v.getLsbD below.length), .ok⟩ =
        ⟨e, rs, (below ++ [.ofBool (v.getLsbD below.length)]) ++ others⟩ := by
      simp [drive_ok_pinWrite, OutLines.set]
    have hrest := ih (below ++ [.ofBool (v.getLsbD below.length)])
    rw [List.length_append, List.length_singleton] at hrest
    rw [List.length_cons, presentFrom, allOk_cons, List.foldl_cons, hset, hrest]
    simp [List.range'_succ]

/-- `Present` puts the value on the data lines and changes nothing else (R120). -/
theorem drive_present {k : Nat} (v : BitVec k) (e rs : Level) {ds : List Level} (h : ds.length = k) :
    (allOk (present v)).foldl TraceEntry.drive ⟨e, rs, ds⟩ = ⟨e, rs, levelsOf v⟩ := by
  have hp := drive_presentFrom v e rs [] ds
  rw [List.length_nil, h] at hp
  simpa [present, levelsOf, List.range_eq_range'] using hp

/-- The writes of data lines latch nothing. -/
theorem latchedFrom_presentFrom {k : Nat} (v : BitVec k) (j m : Nat) (o : OutLines) :
    latchedFrom o (allOk (presentFrom v j m)) = [] := by
  induction m generalizing j o with
  | zero => rfl
  | succ m ih => simp [presentFrom, allOk_cons, latchedFrom, TraceEntry.isEdge, ih]

/-- The lines after a value is presented and strobed (R120, R121): E is low, whatever it was. -/
theorem drive_present_strobe {k : Nat} (v : BitVec k) (d : Duration) (e rs : Level) {ds : List Level}
    (h : ds.length = k) :
    (allOk (present v ++ strobe d)).foldl TraceEntry.drive ⟨e, rs, ds⟩ = ⟨.zero, rs, levelsOf v⟩ := by
  rw [allOk_append, List.foldl_append, drive_present v e rs h]
  rfl

/-- A value that is presented and strobed is latched once, whatever E was (R120, R121). -/
theorem latchedFrom_present_strobe {k : Nat} (v : BitVec k) (d : Duration) (e rs : Level) {ds : List Level}
    (h : ds.length = k) : latchedFrom ⟨e, rs, ds⟩ (allOk (present v ++ strobe d)) = [⟨rs, levelsOf v⟩] := by
  have hnone : latchedFrom ⟨e, rs, ds⟩ (allOk (present v)) = [] := latchedFrom_presentFrom v 0 k _
  rw [allOk_append, latchedFrom_append, hnone, drive_present v e rs h]
  rfl

/-- A transmission begins with the write of RS, which latches nothing. -/
theorem latchedFrom_rs (rs : Bool) (ops : List MicroOp) (o : OutLines) :
    latchedFrom o (allOk (.pinWrite .rs rs :: ops)) = latchedFrom ⟨o.e, .ofBool rs, o.d⟩ (allOk ops) := rfl

/-! ## The transmissions -/

theorem levelsOf_length {k : Nat} (v : BitVec k) : (levelsOf v).length = k := by simp [levelsOf]

theorem sendByteHalf_eq (rs : Bool) (v : Byte) (d : Duration) : sendByteHalf rs v d =
    .pinWrite .rs rs :: ((present (highNibble v) ++ strobe .wait) ++ (present (lowNibble v) ++ strobe d)) := rfl

theorem latchedFrom_sendNibble (rs : Bool) (x : Nibble) (d : Duration) {o : OutLines} (h : o.d.length = 4) :
    latchedFrom o (allOk (sendNibble rs x d)) = [⟨.ofBool rs, levelsOf x⟩] := by
  rw [sendNibble, latchedFrom_rs, latchedFrom_present_strobe x d _ _ h]

/-- A transmission latches its transfers and nothing else, whatever the levels were before (R123, R124). -/
theorem latchedFrom_sendByte (w : BusWidth) (rs : Bool) (v : Byte) (d : Duration) {o : OutLines}
    (h : o.d.length = w.lines) : latchedFrom o (allOk (sendByte w rs v d)) = transfersOf w rs v := by
  cases w with
  | half =>
    rw [sendByte, sendByteHalf_eq, latchedFrom_rs, allOk_append, latchedFrom_append,
      latchedFrom_present_strobe (highNibble v) .wait _ _ h, drive_present_strobe (highNibble v) .wait _ _ h,
      latchedFrom_present_strobe _ d _ _ (levelsOf_length _)]
    rfl
  | full =>
    rw [sendByte, sendByteFull, latchedFrom_rs, latchedFrom_present_strobe v d _ _ h]
    rfl

/-! ## INIT -/

/-- The transfer of one wake-up (R98, R143). -/
def wakeLatch : BusWidth → Latch
  | .half => ⟨.zero, levelsOf wakeNibble⟩
  | .full => ⟨.zero, levelsOf (functionSet true false false)⟩

/-- The lone nibble transfer before the final function set, on HALF only (R98, R144). -/
def switchLatches : BusWidth → List Latch
  | .half => [⟨.zero, levelsOf switchNibble⟩]
  | .full => []

/-- The bytes that an INIT sends after the wake-ups (R144 to R147). -/
def initBytes (w : BusWidth) (n id sh : Bool) : List Byte :=
  [functionSet (decide (w = .full)) n false, displayControl false false false, clearDisplay, entryModeSet id sh]

/-- All that an INIT transfers (R150). -/
def initLatches (w : BusWidth) (n id sh : Bool) : List Latch :=
  List.replicate 3 (wakeLatch w) ++ switchLatches w ++ (initBytes w n id sh).flatMap (transfersOf w false)

theorem latchedFrom_wakeUp (w : BusWidth) (d : Duration) {o : OutLines} (h : o.d.length = w.lines) :
    latchedFrom o (allOk (wakeUp w d)) = [wakeLatch w] := by
  cases w with
  | half => exact latchedFrom_sendNibble false wakeNibble d h
  | full => exact latchedFrom_sendByte .full false _ d h

theorem latchedFrom_functionSetFinal (w : BusWidth) (n : Bool) {o : OutLines} (h : o.d.length = w.lines) :
    latchedFrom o (allOk (functionSetFinal w n)) =
      switchLatches w ++ transfersOf w false (functionSet (decide (w = .full)) n false) := by
  cases w with
  | half =>
    rw [functionSetFinal, allOk_append, latchedFrom_append, latchedFrom_sendNibble _ _ _ h]
    exact congrArg (_ :: ·) (latchedFrom_sendByte .half false _ .wait (by simp [h, BusWidth.lines]))
  | full => exact latchedFrom_sendByte .full false _ .wait h

/-- An INIT latches three wake-ups, on HALF the switch nibble, and its bytes, and nothing else, whatever the levels were
before (R150, R221). -/
theorem latchedFrom_initSeq (w : BusWidth) (n id sh : Bool) {o : OutLines} (h : o.d.length = w.lines) :
    latchedFrom o (allOk (initSeq w n id sh)) = initLatches w n id sh := by
  have hwait : latchedFrom o (allOk powerOnWait) = [] := rfl
  simp only [initSeq, functionSetRetry3, displayOff, clearDisplayStep, entryModeStep, allOk_append, latchedFrom_append,
    List.foldl_append, hwait, latchedFrom_wakeUp, latchedFrom_functionSetFinal, latchedFrom_sendByte, foldl_drive_length, h]
  simp [initLatches, initBytes, List.replicate]

end Sys2Proof.Machine
end

section
/-! SUPPORT. The informative view of the controller's interface over what was latched (R75; log 16): how an INIT brings it
into the mode of the bus from any mode, nibble phase and count of wake-ups, and what it receives there. -/

namespace Sys2Proof.Machine

/-! ## From the trace to the latches -/

/-- Micro-operations that complete ok move the view by what they latch, and by nothing else. -/
theorem ControllerView.after_allOk {pf : Platform} (hp : pf.dutiesMet = true) (w : BusWidth) (o : OutLines)
    (v : ControllerView) (ops : List MicroOp) (events : List ControllerEvent) :
    v.after pf w o ((allOk ops).map .performed ++ events) =
      ((latchedFrom o (allOk ops)).foldl (onLatch w) v).after pf w ((allOk ops).foldl TraceEntry.drive o) events := by
  induction ops generalizing v o with
  | nil => rfl
  | cons op ops ih =>
    rw [allOk_cons, List.map_cons, List.cons_append, after_performed, under_met pf v hp, ih]
    cases hedge : TraceEntry.isEdge o ⟨op, .ok⟩ <;> simp [onEntry, latchedFrom, hedge]

/-- The interface after latches in turn, and the items they complete (R75). -/
def Iface.onLatches (w : BusWidth) : Iface → List Latch → Iface × List Item
  | c, [] => (c, [])
  | c, l :: ls =>
    (((c.onLatch w l).1.onLatches w ls).1, (c.onLatch w l).2.toList ++ ((c.onLatch w l).1.onLatches w ls).2)

theorem Iface.onLatches_append (w : BusWidth) (c : Iface) (ls more : List Latch) :
    c.onLatches w (ls ++ more) =
      (((c.onLatches w ls).1.onLatches w more).1, (c.onLatches w ls).2 ++ ((c.onLatches w ls).1.onLatches w more).2) := by
  induction ls generalizing c with
  | nil => rfl
  | cons l ls ih => simp [onLatches, ih]

/-- The view after latches: its interface follows them, lost or not, and while it is not lost it has their items. -/
theorem ControllerView.foldl_onLatch (w : BusWidth) (v : ControllerView) (ls : List Latch) :
    (ls.foldl (onLatch w) v).iface = (v.iface.onLatches w ls).1 ∧
    (v.lost = false → (ls.foldl (onLatch w) v).items = v.items ++ (v.iface.onLatches w ls).2) := by
  induction ls generalizing v with
  | nil => exact ⟨rfl, fun _ => (List.append_nil _).symm⟩
  | cons l ls ih =>
    obtain ⟨hiface, hitems⟩ := ih (v.onLatch w l)
    refine ⟨hiface, fun hl => ?_⟩
    rw [List.foldl_cons, hitems hl, onLatch_items w v l hl, List.append_assoc]
    rfl

/-! ## The wake-ups -/

/-- A wake-up counts one more 0x3, in any state of the interface; the third in a row puts it into 8-bit mode (R75). -/
theorem Iface.onLatch_wake (w : BusWidth) (c : Iface) : (c.onLatch w (wakeLatch w)).1.threes = c.threes + 1 ∧
    (2 ≤ c.threes → (c.onLatch w (wakeLatch w)).1 = ⟨.eight, none, c.threes + 1⟩) := by
  have hspec : (wakeLatch w).specified = true := by cases w <;> rfl
  have hwake : (wakeLatch w).isWake w = true := by cases w <;> rfl
  simp only [onLatch, hspec, hwake, if_true]
  split
  next => exact ⟨rfl, fun _ => rfl⟩
  next hfew => exact ⟨rfl, fun hmany => absurd (Nat.succ_le_succ hmany) hfew⟩

/-- The three wake-ups of an INIT put the interface into 8-bit mode, whatever it was before (R75, R98). -/
theorem Iface.onLatches_wakeUps (w : BusWidth) (c : Iface) :
    ∃ k, (c.onLatches w (List.replicate 3 (wakeLatch w))).1 = ⟨.eight, none, k⟩ := by
  have h1 := c.onLatch_wake w
  have h2 := (c.onLatch w (wakeLatch w)).1.onLatch_wake w
  have h3 := ((c.onLatch w (wakeLatch w)).1.onLatch w (wakeLatch w)).1.onLatch_wake w
  exact ⟨_, h3.2 (by omega)⟩

/-! ## Bytes in the mode of the bus -/

/-- A nibble transfer is a wake-up exactly when it is the nibble 0x3 (R98). -/
theorem Latch.isWake_nibble (x : Nibble) : Latch.isWake .half ⟨.zero, levelsOf x⟩ = decide (x = 0x3#4) := by
  revert x
  decide

/-- Every line of a command transfer has a level. -/
theorem Latch.specified_command {k : Nat} (v : BitVec k) : Latch.specified ⟨.zero, levelsOf v⟩ = true := by
  have driven (b : Bool) : (Level.ofBool b != .u) = true := by cases b <;> rfl
  simp [specified, levelsOf, driven]

/-- A nibble that is no wake-up is received in the mode the interface is in, and starts the count of wake-ups again. -/
theorem Iface.onLatch_nibble (c : Iface) {x : Nibble} (h : x ≠ 0x3#4) :
    c.onLatch .half ⟨.zero, levelsOf x⟩ =
      (⟨((c.receive .half ⟨.zero, levelsOf x⟩).1.map (·.modeAfter c.mode)).getD c.mode,
        (c.receive .half ⟨.zero, levelsOf x⟩).2, 0⟩, (c.receive .half ⟨.zero, levelsOf x⟩).1) := by
  simp [onLatch, Latch.specified_command, Latch.isWake_nibble, h]

/-- The levels of a byte are those of its nibbles, low one first (R63, R126). -/
theorem levelsOf_nibbles (v : Byte) : levelsOf (lowNibble v) ++ levelsOf (highNibble v) = levelsOf v := by
  simp [levelsOf, lowNibble, highNibble, List.range_succ]

/-- Of the command bytes only 0x30 to 0x3F lead out of 4-bit mode (R92). -/
theorem Item.modeAfter_four {v : Byte} (h : highNibble v ≠ 0x3#4) : modeAfter .four (.item .zero (levelsOf v)) = .four := by
  revert v
  decide

/-- Of the command bytes only 0x20 to 0x2F lead out of 8-bit mode (R92). -/
theorem Item.modeAfter_eight {v : Byte} (h : highNibble v ≠ 0x2#4) :
    modeAfter .eight (.item .zero (levelsOf v)) = .eight := by
  revert v
  decide

/-- A command byte that neither leads out of the mode of the bus nor, on HALF, has a nibble that could be a wake-up. -/
def keepsBusMode (w : BusWidth) (v : Byte) : Bool :=
  match w with
  | .half => highNibble v != 0x3#4 && lowNibble v != 0x3#4
  | .full => highNibble v != 0x2#4

theorem initBytes_keepBusMode (w : BusWidth) (n id sh : Bool) : ∀ v ∈ initBytes w n id sh, keepsBusMode w v = true := by
  have finalSet : keepsBusMode w (functionSet (decide (w = .full)) n false) = true := by cases w <;> cases n <;> rfl
  have off : keepsBusMode w (displayControl false false false) = true := by cases w <;> rfl
  have clear : keepsBusMode w clearDisplay = true := by cases w <;> rfl
  have entryMode : keepsBusMode w (entryModeSet id sh) = true := by cases w <;> cases id <;> cases sh <;> rfl
  simp [initBytes, finalSet, off, clear, entryMode]

/-- In the mode of the bus with no nibble waiting, a byte that keeps that mode is received as it is, and leaves no nibble
waiting. -/
theorem Iface.onLatches_byte {w : BusWidth} {v : Byte} (hv : keepsBusMode w v = true) (k : Nat) :
    ∃ k', Iface.onLatches w ⟨busIfaceMode w, none, k⟩ (transfersOf w false v) =
      (⟨busIfaceMode w, none, k'⟩, [.item .zero (levelsOf v)]) := by
  cases w with
  | half =>
    obtain ⟨hhigh, hlow⟩ : highNibble v ≠ 0x3#4 ∧ lowNibble v ≠ 0x3#4 := by simpa [keepsBusMode] using hv
    have first : Iface.onLatch .half ⟨.four, none, k⟩ ⟨.zero, levelsOf (highNibble v)⟩ =
        (⟨.four, some ⟨.zero, levelsOf (highNibble v)⟩, 0⟩, none) :=
      onLatch_nibble _ hhigh
    have second : Iface.onLatch .half ⟨.four, some ⟨.zero, levelsOf (highNibble v)⟩, 0⟩ ⟨.zero, levelsOf (lowNibble v)⟩ =
        (⟨Item.modeAfter .four (.item .zero (levelsOf (lowNibble v) ++ levelsOf (highNibble v))), none, 0⟩,
          some (.item .zero (levelsOf (lowNibble v) ++ levelsOf (highNibble v)))) :=
      onLatch_nibble _ hlow
    rw [levelsOf_nibbles, Item.modeAfter_four hhigh] at second
    have transfers : transfersOf .half false v = [⟨.zero, levelsOf (highNibble v)⟩, ⟨.zero, levelsOf (lowNibble v)⟩] := rfl
    exact ⟨0, by simp [transfers, onLatches, busIfaceMode, first, second]⟩
  | full =>
    have hhigh : highNibble v ≠ 0x2#4 := by simpa [keepsBusMode] using hv
    obtain ⟨k', hk⟩ : ∃ k', Iface.onLatch .full ⟨.eight, none, k⟩ ⟨.zero, levelsOf v⟩ =
        (⟨.eight, none, k'⟩, some (.item .zero (levelsOf v))) := by
      simp only [onLatch, Latch.specified_command, if_true]
      generalize (if Latch.isWake .full ⟨.zero, levelsOf v⟩ then k + 1 else 0) = threes
      refine ⟨threes, ?_⟩
      split
      next => rfl
      next => exact Prod.ext (congrArg (Iface.mk · none threes) (Item.modeAfter_eight hhigh)) rfl
    have transfers : transfersOf .full false v = [⟨.zero, levelsOf v⟩] := rfl
    exact ⟨k', by simp [transfers, onLatches, busIfaceMode, hk]⟩

/-- So is a list of such bytes, in order. -/
theorem Iface.onLatches_bytes {w : BusWidth} {vs : List Byte} (hv : ∀ v ∈ vs, keepsBusMode w v = true) (k : Nat) :
    ∃ k', Iface.onLatches w ⟨busIfaceMode w, none, k⟩ (vs.flatMap (transfersOf w false)) =
      (⟨busIfaceMode w, none, k'⟩, vs.map fun v => .item .zero (levelsOf v)) := by
  induction vs generalizing k with
  | nil => exact ⟨k, rfl⟩
  | cons v vs ih =>
    obtain ⟨hv, hvs⟩ := List.forall_mem_cons.1 hv
    obtain ⟨k1, h1⟩ := onLatches_byte hv k
    obtain ⟨k2, h2⟩ := ih hvs k1
    exact ⟨k2, by rw [List.flatMap_cons, onLatches_append, h1, h2]; rfl⟩

/-- After the wake-ups the switch nibble, on HALF only, puts the interface into the mode of the bus (R98, R144). -/
theorem Iface.onLatches_switch (w : BusWidth) (k : Nat) :
    ∃ k', (Iface.onLatches w ⟨.eight, none, k⟩ (switchLatches w)).1 = ⟨busIfaceMode w, none, k'⟩ := by
  cases w with
  | half => exact ⟨0, rfl⟩
  | full => exact ⟨k, rfl⟩

/-- An INIT leaves the interface in the mode of the bus with no nibble waiting, whatever it was before, and the items it
completes end with the INIT's own bytes (R229). -/
theorem Iface.onLatches_init (w : BusWidth) (n id sh : Bool) (c : Iface) : ∃ k items,
    c.onLatches w (initLatches w n id sh) =
      (⟨busIfaceMode w, none, k⟩, items ++ (initBytes w n id sh).map fun v => .item .zero (levelsOf v)) := by
  obtain ⟨k1, h1⟩ := c.onLatches_wakeUps w
  obtain ⟨k2, h2⟩ := onLatches_switch w k1
  obtain ⟨k3, h3⟩ := onLatches_bytes (initBytes_keepBusMode w n id sh) k2
  exact ⟨k3, _, by rw [initLatches, onLatches_append, onLatches_append, h1, h2, h3]⟩

end Sys2Proof.Machine
end

section
/-! The obligations of 20_memory.md. -/

namespace Sys2Proof.Machine

/-- Settles O17: the three wake-ups put the interface into 8-bit mode from any mode, nibble phase and count, so that all that
INIT sends after them is received as it is sent; its completion finds the controller again. -/
theorem initResynchronizesTheController : Obligations.InitResynchronizesTheController := by
  unfold Obligations.InitResynchronizesTheController
  intro pf w n id sh v o hp ho
  refine ⟨_, rfl, ?_⟩
  obtain ⟨k, earlier, hinit⟩ := v.iface.onLatches_init w n id sh
  obtain ⟨hiface, hitems⟩ := v.foldl_onLatch w (latchedFrom o (allOk (initSeq w n id sh)))
  rw [latchedFrom_initSeq w n id sh ho, hinit] at hiface hitems
  rw [ControllerView.after_allOk hp, latchedFrom_initSeq w n id sh ho, ControllerView.after_initDone,
    ControllerView.after_nil, ControllerView.under_met pf _ hp]
  refine ⟨rfl, ?_, ?_, fun hl => ⟨v.items ++ earlier, ?_⟩⟩
  · simp [ControllerView.mode, hiface]
  · simp [hiface]
  · rw [List.append_assoc]
    exact hitems hl

/-- Settles O30: the block sends a form only when it is due, which none is. -/
theorem transferNotDueIsRefused : Obligations.TransferNotDueIsRefused := by
  unfold Obligations.TransferNotDueIsRefused
  intro i s forms op ph he hno
  have noneDue : forms.find? s.isDue = none := List.find?_eq_none.2 fun ops hm hdue => by
    obtain ⟨hb, hprefix⟩ : s.busy = true ∧ ops <+: s.seq.drop s.upc := by simpa [State.isDue] using hdue
    obtain hidle | hnot := hno
    · exact absurd (hb.symm.trans hidle) (by decide)
    · exact hnot ops hm hprefix
  rw [exec_transfer he, State.transmit, noneDue]

end Sys2Proof.Machine
end

section
/-! SUPPORT. The decoder against the opcode map of 30_encoding.md section 3: its answer for each opcode, the row that each of
its tests is, and the one row at most that a packet matches. -/

namespace Sys2Proof.Machine

/-! ## Fields as arithmetic on the word's number -/

theorem extract_eq_iff {w : Nat} (q : BitVec w) (lo len : Nat) (c : BitVec len) :
    q.extractLsb' lo len = c ↔ q.toNat / 2 ^ lo % 2 ^ len = c.toNat := by
  rw [← BitVec.toNat_inj, extract_toNat]

theorem getLsbD_eq_decide {w : Nat} (q : BitVec w) (k : Nat) : q.getLsbD k = decide (q.toNat / 2 ^ k % 2 = 1) :=
  Nat.testBit_eq_decide_div_mod_eq

/-! ## The answer for each opcode -/

/-- An opcode is reserved or one of the five of R81. -/
theorem opcode_cases (c : BitVec 4) :
    (c = 0x0#4 ∨ 0x6#4 ≤ c) ∨ c = 0x1#4 ∨ c = 0x2#4 ∨ c = 0x3#4 ∨ c = 0x4#4 ∨ c = 0x5#4 := by
  revert c
  decide

section opcodes

variable {q : Word} (payload : List Byte)

theorem decode_initWord (h : q.extractLsb' 12 4 = 0x1#4) : decode (.request q payload) =
    oneWord (q.extractLsb' 3 9 != 0#9) payload (.init (q.getLsbD 2) (q.getLsbD 1) (q.getLsbD 0)) := by
  rw [decode, decodeRequest, h]; rfl

theorem decode_displayControlWord (h : q.extractLsb' 12 4 = 0x2#4) : decode (.request q payload) =
    oneWord (q.extractLsb' 3 9 != 0#9) payload (.setDisplayControl (q.getLsbD 2) (q.getLsbD 1) (q.getLsbD 0)) := by
  rw [decode, decodeRequest, h]; rfl

theorem decode_seekWord (h : q.extractLsb' 12 4 = 0x3#4) : decode (.request q payload) =
    oneWord (q.extractLsb' 7 5 != 0#5) payload (.seek (q.extractLsb' 0 7)) := by
  rw [decode, decodeRequest, h]; rfl

theorem decode_writeWord (h : q.extractLsb' 12 4 = 0x4#4) : decode (.request q payload) =
    if payload.length = (q.extractLsb' 0 12).toNat then .ok (.write payload) else .error .payloadLength := by
  rw [decode, decodeRequest, h]; rfl

theorem decode_abortWord (h : q.extractLsb' 12 4 = 0x5#4) : decode (.request q payload) =
    oneWord (q.extractLsb' 0 12 != 0#12) payload .abort := by
  rw [decode, decodeRequest, h]; rfl

theorem decode_reservedOpcode (h : q.extractLsb' 12 4 = 0x0#4 ∨ 0x6#4 ≤ q.extractLsb' 12 4) :
    decode (.request q payload) = .error .reservedOpcode := by
  rw [decode, decodeRequest]
  generalize q.extractLsb' 12 4 = c at h
  obtain rfl | h := h
  · rfl
  · have hc : 6 ≤ c.toNat := h
    split
    case h_6 => rfl
    all_goals omega

end opcodes

theorem oneWord_reserved {k : Nat} {field : BitVec k} (h : field ≠ 0#k) (payload : List Byte) (i : Instr) :
    oneWord (field != 0#k) payload i = .error .reservedBits := by
  simp [oneWord, h]

theorem oneWord_free {k : Nat} {field : BitVec k} (h : field = 0#k) (payload : List Byte) (i : Instr) :
    oneWord (field != 0#k) payload i = if payload = [] then .ok i else .error .payloadLength := by
  simp [oneWord, h]

/-! ## Decoding what was encoded -/

theorem decode_encode_init (n id sh : Bool) : decode (encode (.init n id sh)) = .ok (.init n id sh) := by
  revert n id sh
  decide

theorem decode_encode_setDisplayControl (d c b : Bool) :
    decode (encode (.setDisplayControl d c b)) = .ok (.setDisplayControl d c b) := by
  revert d c b
  decide

theorem decode_encode_seek (a : Address) : decode (encode (.seek a)) = .ok (.seek a) := by
  have hop : (0b0011#4 ++ 0#5 ++ a).extractLsb' 12 4 = 0x3#4 := BitVec.extractLsb'_append_eq_of_le (by decide)
  have hres : (0b0011#4 ++ 0#5 ++ a).extractLsb' 7 5 = 0#5 := BitVec.extractLsb'_append_eq_of_le (by decide)
  have haddress : (0b0011#4 ++ 0#5 ++ a).extractLsb' 0 7 = a := BitVec.extractLsb'_append_eq_right
  rw [encode, decode_seekWord [] hop, oneWord_free hres, if_pos rfl, haddress]

/-- The length field holds the number of the payload bytes, up to 4095 of them (R81, R85). -/
theorem decode_encode_write {bytes : List Byte} (h : bytes.length ≤ maxWriteLen) :
    decode (encode (.write bytes)) = .ok (.write bytes) := by
  have hop : (0b0100#4 ++ BitVec.ofNat 12 bytes.length).extractLsb' 12 4 = 0x4#4 := BitVec.extractLsb'_append_eq_left
  have hlen : ((0b0100#4 ++ BitVec.ofNat 12 bytes.length).extractLsb' 0 12).toNat = bytes.length := by
    rw [BitVec.extractLsb'_append_eq_right]
    exact Nat.mod_eq_of_lt (Nat.lt_succ_of_le h)
  rw [encode, decode_writeWord bytes hop, if_pos hlen.symm]

theorem decode_encode_busEntryModeSet (id sh : Bool) :
    decode (encode (.busEntryModeSet id sh)) = .ok (.busEntryModeSet id sh) := by
  revert id sh
  decide

theorem decode_encode_busDisplayControl (d c b : Bool) :
    decode (encode (.busDisplayControl d c b)) = .ok (.busDisplayControl d c b) := by
  revert d c b
  decide

theorem decode_encode_busFunctionSet (dl n : Bool) :
    decode (encode (.busFunctionSet dl n)) = .ok (.busFunctionSet dl n) := by
  revert dl n
  decide

theorem decode_encode_busSetDdramAddress (a : Address) :
    decode (encode (.busSetDdramAddress a)) = .ok (.busSetDdramAddress a) := by
  have hrs : (0b01#2 ++ a).getLsbD 8 = false := BitVec.getLsbD_append
  have htop : (0b01#2 ++ a).getLsbD 7 = true := BitVec.getLsbD_append
  rw [encode, decode, decodeByte, hrs, htop, BitVec.extractLsb'_append_eq_right]
  rfl

theorem decode_encode_busWriteData (v : Byte) : decode (encode (.busWriteData v)) = .ok (.busWriteData v) := by
  have hrs : (0b1#1 ++ v).getLsbD 8 = true := BitVec.getLsbD_append
  rw [encode, decode, decodeByte, hrs, BitVec.extractLsb'_append_eq_right]
  rfl

/-- `0x80 | a` is the fixed bit in front of the address (R96, R100). -/
theorem encode_busSetDdramAddress (a : Address) :
    encode (.busSetDdramAddress a) = .busByte (0#1 ++ setDdramAddress a) := by
  have hor : 128 ||| a.toNat = 128 + a.toNat := (Nat.two_pow_add_eq_or_of_lt (i := 7) a.isLt 1).symm
  have hmod : a.toNat % 256 = a.toNat := Nat.mod_eq_of_lt (lt_trans a.isLt (by decide))
  refine congrArg Packet.busByte (BitVec.eq_of_toNat_eq ?_)
  rw [append_toNat, append_toNat]
  simp [setDdramAddress, hor, hmod]

/-! ## The rows exclude each other -/

/-- Two rows that fix a common bit differently have no value in common. -/
theorem covers_exclusive {a b : OpcodeRow} (h : a.value &&& b.mask ≠ b.value &&& a.mask) {v : Nat}
    (ha : a.covers v = true) : b.covers v = false := by
  by_contra hb
  have ha' : v &&& a.mask = a.value := by simpa [OpcodeRow.covers] using ha
  have hb' : v &&& b.mask = b.value := by simpa [OpcodeRow.covers] using hb
  exact h (by rw [← ha', ← hb', Nat.and_right_comm])

/-- Any two rows of the list fix a common bit differently. -/
def RowsExclusive (rows : List OpcodeRow) : Prop := rows.Pairwise fun a b => a.value &&& b.mask ≠ b.value &&& a.mask

theorem requestRows_exclusive : RowsExclusive requestRows := by unfold RowsExclusive; decide
theorem byteRows_exclusive : RowsExclusive byteRows := by unfold RowsExclusive; decide
theorem nibbleRows_exclusive : RowsExclusive nibbleRows := by unfold RowsExclusive; decide

/-- Of rows that exclude each other, a value that matches one matches that one only. -/
theorem filter_covers_eq_singleton {rows : List OpcodeRow} (hx : RowsExclusive rows) {r : OpcodeRow} (hr : r ∈ rows)
    {v : Nat} (hc : r.covers v = true) : rows.filter (·.covers v) = [r] := by
  induction rows with
  | nil => cases hr
  | cons a rows ih =>
    obtain ⟨hhead, htail⟩ := List.pairwise_cons.1 hx
    obtain rfl | hr := List.mem_cons.1 hr
    · have hrest : rows.filter (·.covers v) = [] :=
        List.filter_eq_nil_iff.2 fun b hb => by simp [covers_exclusive (hhead b hb) hc]
      rw [List.filter_cons_of_pos (p := fun x : OpcodeRow => x.covers v) hc, hrest]
    · have ha : ¬ a.covers v = true := by simp [covers_exclusive (hhead r hr).symm hc]
      rw [List.filter_cons_of_neg (p := fun x : OpcodeRow => x.covers v) ha, ih htail hr]

/-! ## The decoder's tests are the rows -/

/-- A request word matches a row when it has the row's opcode and, but for WRITE, its reserved bits are zero. -/
theorem requestRows_covers_iff (q : Word) :
    (OpcodeRow.covers ⟨0xFFF8, 0x1000⟩ q.toNat = true ↔ q.extractLsb' 12 4 = 0x1#4 ∧ q.extractLsb' 3 9 = 0#9) ∧
    (OpcodeRow.covers ⟨0xFFF8, 0x2000⟩ q.toNat = true ↔ q.extractLsb' 12 4 = 0x2#4 ∧ q.extractLsb' 3 9 = 0#9) ∧
    (OpcodeRow.covers ⟨0xFF80, 0x3000⟩ q.toNat = true ↔ q.extractLsb' 12 4 = 0x3#4 ∧ q.extractLsb' 7 5 = 0#5) ∧
    (OpcodeRow.covers ⟨0xF000, 0x4000⟩ q.toNat = true ↔ q.extractLsb' 12 4 = 0x4#4) ∧
    (OpcodeRow.covers ⟨0xFFFF, 0x5000⟩ q.toNat = true ↔ q.extractLsb' 12 4 = 0x5#4 ∧ q.extractLsb' 0 12 = 0#12) := by
  have hq := q.isLt
  obtain ⟨h1, h2, h3, h4, h5⟩ := requestRows_covers q
  simp only [h1, h2, h3, h4, h5, decide_eq_true_eq, extract_eq_iff, BitVec.toNat_ofNat]
  refine ⟨?_, ?_, ?_, ?_, ?_⟩ <;> omega

/-- A byte value matches a row when the decoder's test for that row says so. -/
theorem byteRows_covers_iff (t : BitVec 9) :
    (OpcodeRow.covers ⟨0x1FF, 0x001⟩ t.toNat = true ↔ t = 0b000000001#9) ∧
    (OpcodeRow.covers ⟨0x1FC, 0x004⟩ t.toNat = true ↔ t.extractLsb' 2 7 = 0b0000001#7) ∧
    (OpcodeRow.covers ⟨0x1F8, 0x008⟩ t.toNat = true ↔ t.extractLsb' 3 6 = 0b000001#6) ∧
    (OpcodeRow.covers ⟨0x1E7, 0x020⟩ t.toNat = true ↔ t.extractLsb' 5 4 = 0b0001#4 ∧ t.extractLsb' 0 3 = 0#3) ∧
    (OpcodeRow.covers ⟨0x180, 0x080⟩ t.toNat = true ↔ t.getLsbD 8 = false ∧ t.getLsbD 7 = true) ∧
    (OpcodeRow.covers ⟨0x100, 0x100⟩ t.toNat = true ↔ t.getLsbD 8 = true) := by
  have ht := t.isLt
  have h0 := and_high_mask 9 0 t.toNat ht
  have h2 := and_high_mask 9 2 t.toNat ht
  have h3 := and_high_mask 9 3 t.toNat ht
  have h5 := and_high_mask 9 5 t.toNat ht
  have h7 := and_high_mask 9 7 t.toNat ht
  have h8 := and_high_mask 9 8 t.toNat ht
  have hlow : t.toNat &&& 7 = t.toNat % 8 := Nat.and_two_pow_sub_one_eq_mod t.toNat 3
  norm_num at h0 h2 h3 h5 h7 h8
  have hfs : t.toNat &&& 0x1E7 = t.toNat / 32 * 32 + t.toNat % 8 := by
    rw [show 0x1E7 = 480 ||| 7 from rfl, Nat.and_or_distrib_left, h5, hlow, Nat.mul_comm]
    exact (Nat.two_pow_add_eq_or_of_lt (i := 5) (by omega) _).symm
  simp only [OpcodeRow.covers, h0, h2, h3, hfs, h7, h8, beq_iff_eq, ← BitVec.toNat_inj, extract_toNat,
    getLsbD_eq_decide, decide_eq_true_eq, decide_eq_false_iff_not, BitVec.toNat_ofNat]
  refine ⟨trivial, ?_, ?_, ?_, ?_, ?_⟩ <;> omega

/-- A nibble value matches a row when it is the row's. -/
theorem nibbleRows_covers_iff (t : BitVec 5) :
    (OpcodeRow.covers ⟨0x1F, 0x03⟩ t.toNat = true ↔ t = 0b00011#5) ∧
    (OpcodeRow.covers ⟨0x1F, 0x02⟩ t.toNat = true ↔ t = 0b00010#5) := by
  have hall : t.toNat &&& 31 = t.toNat := by
    rw [show 31 = 2 ^ 5 - 1 from rfl, Nat.and_two_pow_sub_one_eq_mod, Nat.mod_eq_of_lt t.isLt]
  simp [OpcodeRow.covers, hall, ← BitVec.toNat_inj]

theorem request_rows_eq_nil_iff (q : Word) (payload : List Byte) : (Packet.request q payload).rows = [] ↔
    ¬ (q.extractLsb' 12 4 = 0x1#4 ∧ q.extractLsb' 3 9 = 0#9) ∧ ¬ (q.extractLsb' 12 4 = 0x2#4 ∧ q.extractLsb' 3 9 = 0#9) ∧
    ¬ (q.extractLsb' 12 4 = 0x3#4 ∧ q.extractLsb' 7 5 = 0#5) ∧ ¬ q.extractLsb' 12 4 = 0x4#4 ∧
    ¬ (q.extractLsb' 12 4 = 0x5#4 ∧ q.extractLsb' 0 12 = 0#12) := by
  obtain ⟨hinit, hdisplay, hseek, hwrite, habort⟩ := requestRows_covers_iff q
  simp only [Packet.rows, List.filter_eq_nil_iff, requestRows, List.forall_mem_cons, List.not_mem_nil, IsEmpty.forall_iff,
    implies_true, and_true, hinit, hdisplay, hseek, hwrite, habort]

/-! ## The decoder follows the map -/

/-- How the decoder answers a packet that the opcode map gives a row, and one that it gives none. -/
inductive FollowsMap (p : Packet) : Prop where
  | row (i : Instr) (rows : p.rows = [i.opcodeRow]) (announced : payloadIsAnnounced p → decode p = .ok i)
      (mismatched : ¬ payloadIsAnnounced p → decode p = .error .payloadLength)
  | noRow (rows : p.rows = []) (r : Reject) (cause : r ≠ .payloadLength) (rejected : decode p = .error r)

/-- A word that announces no payload, with its reserved bits in `field`. -/
theorem oneWord_followsMap {q : Word} {payload : List Byte} {i : Instr} {k : Nat} {field : BitVec k}
    (hdecode : decode (.request q payload) = oneWord (field != 0#k) payload i) (hop : q.extractLsb' 12 4 ≠ 0x4#4)
    (hmem : i.opcodeRow ∈ requestRows) (hcovers : field = 0#k → i.opcodeRow.covers q.toNat = true)
    (hnone : field ≠ 0#k → (Packet.request q payload).rows = []) : FollowsMap (.request q payload) := by
  have hpayload : payloadIsAnnounced (.request q payload) ↔ payload = [] := by
    simp [payloadIsAnnounced, announcedLength, hop]
  by_cases hfield : field = 0#k
  · refine .row i (filter_covers_eq_singleton requestRows_exclusive hmem (hcovers hfield)) (fun h => ?_) fun h => ?_
    · rw [hdecode, oneWord_free hfield, if_pos (hpayload.1 h)]
    · rw [hdecode, oneWord_free hfield, if_neg (mt hpayload.2 h)]
  · exact .noRow (hnone hfield) .reservedBits (by decide) (hdecode.trans (oneWord_reserved hfield payload i))

theorem request_followsMap (q : Word) (payload : List Byte) : FollowsMap (.request q payload) := by
  obtain ⟨hinit, hdisplay, hseek, hwrite, habort⟩ := requestRows_covers_iff q
  have hnone := (request_rows_eq_nil_iff q payload).2
  obtain h | h | h | h | h | h := opcode_cases (q.extractLsb' 12 4)
  · have other (c : BitVec 4) (hc : ¬ (c = 0x0#4 ∨ 0x6#4 ≤ c)) : ¬ q.extractLsb' 12 4 = c := fun e => hc (e ▸ h)
    exact .noRow (hnone (by simp [other])) .reservedOpcode (by decide) (decode_reservedOpcode payload h)
  · exact oneWord_followsMap (decode_initWord payload h) (by simp [h]) (by simp [Instr.opcodeRow, requestRows])
      (fun hres => hinit.2 ⟨h, hres⟩) fun hres => hnone (by simp [h, hres])
  · exact oneWord_followsMap (decode_displayControlWord payload h) (by simp [h])
      (by simp [Instr.opcodeRow, requestRows]) (fun hres => hdisplay.2 ⟨h, hres⟩)
      fun hres => hnone (by simp [h, hres])
  · exact oneWord_followsMap (decode_seekWord payload h) (by simp [h]) (by simp [Instr.opcodeRow, requestRows])
      (fun hres => hseek.2 ⟨h, hres⟩) fun hres => hnone (by simp [h, hres])
  · have hpayload : payloadIsAnnounced (.request q payload) ↔ payload.length = (q.extractLsb' 0 12).toNat := by
      simp only [payloadIsAnnounced, announcedLength, h, if_true]
    have hrow := filter_covers_eq_singleton requestRows_exclusive (by simp [requestRows]) (hwrite.2 h)
    refine .row (.write payload) hrow (fun ha => ?_) fun ha => ?_
    · rw [decode_writeWord payload h, if_pos (hpayload.1 ha)]
    · rw [decode_writeWord payload h, if_neg (mt hpayload.2 ha)]
  · exact oneWord_followsMap (decode_abortWord payload h) (by simp [h]) (by simp [Instr.opcodeRow, requestRows])
      (fun hres => habort.2 ⟨h, hres⟩) fun hres => hnone (by simp [h, hres])

/-- A byte value that decodes matches the row of what it decodes to. -/
theorem decodeByte_ok {t : BitVec 9} {i : Instr} (h : decodeByte t = .ok i) :
    i.opcodeRow ∈ byteRows ∧ i.opcodeRow.covers t.toNat = true := by
  obtain ⟨hclear, hentry, hdisplay, hfunction, haddress, hdata⟩ := byteRows_covers_iff t
  unfold decodeByte at h
  split_ifs at h with h8 h7 hf hd he hc <;> cases h <;> refine ⟨by simp [Instr.opcodeRow, byteRows], ?_⟩
  · exact hdata.2 h8
  · exact haddress.2 ⟨eq_false_of_ne_true h8, h7⟩
  · exact hfunction.2 hf
  · exact hdisplay.2 hd
  · exact hentry.2 he
  · exact hclear.2 hc

/-- A byte value that does not decode matches no row. -/
theorem decodeByte_error {t : BitVec 9} {r : Reject} (h : decodeByte t = .error r) :
    r = .noSuchTransfer ∧ (Packet.busByte t).rows = [] := by
  obtain ⟨hclear, hentry, hdisplay, hfunction, haddress, hdata⟩ := byteRows_covers_iff t
  unfold decodeByte at h
  split_ifs at h with h8 h7 hf hd he hc
  cases h
  refine ⟨rfl, ?_⟩
  simp only [Packet.rows, List.filter_eq_nil_iff, byteRows, List.forall_mem_cons, List.not_mem_nil, IsEmpty.forall_iff,
    implies_true, and_true, hclear, hentry, hdisplay, hfunction, haddress, hdata]
  exact ⟨hc, he, hd, hf, fun h => h7 h.2, h8⟩

theorem busByte_followsMap (t : BitVec 9) : FollowsMap (.busByte t) := by
  cases h : decodeByte t with
  | ok i =>
    obtain ⟨hmem, hcovers⟩ := decodeByte_ok h
    exact .row i (filter_covers_eq_singleton byteRows_exclusive hmem hcovers) (fun _ => h) fun hn => absurd trivial hn
  | error r =>
    obtain ⟨rfl, hrows⟩ := decodeByte_error h
    exact .noRow hrows _ (by decide) h

theorem busNibble_followsMap (t : BitVec 5) : FollowsMap (.busNibble t) := by
  obtain ⟨hwake, hswitch⟩ := nibbleRows_covers_iff t
  have found {i : Instr} (h : decodeNibble t = .ok i) (hmem : i.opcodeRow ∈ nibbleRows)
      (hcovers : i.opcodeRow.covers t.toNat = true) : FollowsMap (.busNibble t) :=
    .row i (filter_covers_eq_singleton nibbleRows_exclusive hmem hcovers) (fun _ => h) fun hn => absurd trivial hn
  by_cases hw : t = 0b00011#5
  · exact found (if_pos hw) (by decide) (hwake.2 hw)
  by_cases hs : t = 0b00010#5
  · exact found ((if_neg hw).trans (if_pos hs)) (by decide) (hswitch.2 hs)
  · have hrows : (Packet.busNibble t).rows = [] := by
      simp only [Packet.rows, List.filter_eq_nil_iff, nibbleRows, List.forall_mem_cons, List.not_mem_nil, IsEmpty.forall_iff,
        implies_true, and_true, hwake, hswitch]
      exact ⟨hw, hs⟩
    exact .noRow hrows .noSuchTransfer (by decide) ((if_neg hw).trans (if_neg hs))

theorem followsMap (p : Packet) : FollowsMap p := by
  cases p with
  | request q payload => exact request_followsMap q payload
  | busByte t => exact busByte_followsMap t
  | busNibble t => exact busNibble_followsMap t

end Sys2Proof.Machine
end

section
/-! SUPPORT. The transmissions that the rows of 30_encoding.md section 3 stand for: which instruction sends which, what sending
one does, and that every expansion is made of them. -/

namespace Sys2Proof.Machine

/-! ## What each row sends -/

/-- The instruction `i` sends `ops`, a wait included, on a bus of width `w`. -/
def Emits (w : BusWidth) (i : Instr) (ops : List MicroOp) : Prop :=
  ∃ forms op ph, emitterOf w i = some (forms, op, ph) ∧ ops ∈ forms

theorem Emits.isTransmission {w : BusWidth} {i : Instr} {ops : List MicroOp} (h : Emits w i ops) : IsTransmission w ops :=
  ⟨i, h⟩

section rows

variable (w : BusWidth)

theorem emits_clearDisplay : Emits w .busClearDisplay (sendByte w false clearDisplay .clear) :=
  ⟨_, _, _, rfl, List.mem_singleton_self _⟩

theorem emits_entryMode (id sh : Bool) : Emits w (.busEntryModeSet id sh) (sendByte w false (entryModeSet id sh) .wait) :=
  ⟨_, _, _, rfl, List.mem_singleton_self _⟩

theorem emits_displayControl (d c b : Bool) :
    Emits w (.busDisplayControl d c b) (sendByte w false (displayControl d c b) .wait) :=
  ⟨_, _, _, rfl, List.mem_singleton_self _⟩

theorem emits_setDdramAddress (a : Address) :
    Emits w (.busSetDdramAddress a) (sendByte w false (setDdramAddress a) .wait) :=
  ⟨_, _, _, rfl, List.mem_singleton_self _⟩

theorem emits_writeData (v : Byte) : Emits w (.busWriteData v) (sendByte w true v .wait) :=
  ⟨_, _, _, rfl, List.mem_singleton_self _⟩

theorem wait_mem_functionSetWaits (dl n : Bool) : Duration.wait ∈ functionSetWaits w dl n := by
  unfold functionSetWaits
  split <;> simp

theorem emits_functionSet (dl n : Bool) :
    Emits w (.busFunctionSet dl n) (sendByte w false (functionSet dl n false) .wait) :=
  ⟨_, _, _, rfl, List.mem_map_of_mem (wait_mem_functionSetWaits w dl n)⟩

end rows

/-- On FULL a wake-up is the function-set byte 0x30 (R98, R143). -/
theorem emits_wakeByte {d : Duration} (h : d ∈ [Duration.wake1, .wake2, .wake3]) :
    Emits .full (.busFunctionSet true false) (sendByte .full false (functionSet true false false) d) := by
  have hwaits : d ∈ [Duration.wake1, .wake2, .wake3] ++ [.wait] := List.mem_append_left _ h
  exact ⟨_, _, _, rfl, List.mem_map_of_mem hwaits⟩

theorem emits_wakeNibble {d : Duration} (h : d ∈ [Duration.wake1, .wake2, .wake3]) :
    Emits .half .busWakeNibble (sendNibble false wakeNibble d) :=
  ⟨_, _, _, rfl, List.mem_map_of_mem h⟩

theorem emits_switchNibble : Emits .half .busSwitchNibble (sendNibble false switchNibble .wait) :=
  ⟨_, _, _, rfl, List.mem_singleton_self _⟩

/-! ## What sending does -/

/-- A transmission that is due and whose PinWrites are all answered ok is performed whole. -/
theorem exec_emitted {i : Instr} {s : State} {ops : List MicroOp} {rest : List PinAnswer} (he : Emits s.width i ops)
    (hd : s.DueNext ops) (ha : s.AnswersOk ops rest) :
    exec i s = .next (s.sent ops rest ((allOk ops).foldl TraceEntry.drive s.out)) := by
  obtain ⟨forms, op, ph, hforms, hmem⟩ := he
  obtain ⟨hc, hb, hp⟩ := hd
  rw [exec_due hforms hmem ⟨hc, hb, hp⟩, State.microSteps_answersOk hb (hc.busyUpc hb) hp ha]

/-- A transmission begins with the write of RS. -/
theorem drive_rs (rs : Bool) (ops : List MicroOp) (o : OutLines) :
    (allOk (.pinWrite .rs rs :: ops)).foldl TraceEntry.drive o =
      (allOk ops).foldl TraceEntry.drive ⟨o.e, .ofBool rs, o.d⟩ := rfl

theorem drive_sendNibble (rs : Bool) (x : Nibble) (d : Duration) {o : OutLines} (h : o.d.length = 4) :
    (allOk (sendNibble rs x d)).foldl TraceEntry.drive o = ⟨.zero, .ofBool rs, levelsOf x⟩ := by
  rw [sendNibble, drive_rs, drive_present_strobe x d _ _ h]

theorem drive_sendByte (w : BusWidth) (rs : Bool) (v : Byte) (d : Duration) {o : OutLines} (h : o.d.length = w.lines) :
    (allOk (sendByte w rs v d)).foldl TraceEntry.drive o = linesAfterByte w rs v := by
  cases w with
  | half =>
    rw [sendByte, sendByteHalf_eq, drive_rs, allOk_append, List.foldl_append,
      drive_present_strobe (highNibble v) .wait _ _ h, drive_present_strobe (lowNibble v) d _ _ (levelsOf_length _)]
    rfl
  | full =>
    rw [sendByte, sendByteFull, drive_rs, drive_present_strobe v d _ _ h]
    rfl

theorem sendsByte_of_emits {i : Instr} {rs : Bool} {v : Byte} {d : Duration}
    (h : ∀ w, Emits w i (sendByte w rs v d)) : SendsByte i rs v d := by
  intro s rest hd ha
  rw [exec_emitted (h s.width) hd ha, drive_sendByte _ _ _ _ hd.1.dataLines]

theorem sendsNibble_of_emits {i : Instr} {x : Nibble} {d : Duration} (h : Emits .half i (sendNibble false x d)) :
    SendsNibble i x d := by
  intro s rest hw hd ha
  have hlines : s.out.d.length = 4 := by rw [hd.1.dataLines, hw]; rfl
  rw [exec_emitted (hw ▸ h) hd ha, drive_sendNibble _ _ _ hlines]
  rfl

/-- The byte with F = 0 has no bit for it (R92). -/
theorem functionSet_noFont (dl n : Bool) : functionSet dl n false = 0x20#8 ||| bitAt dl 4 ||| bitAt n 3 := BitVec.or_zero

/-! ## Expansions -/

/-- `ops` are transmissions, one after the other. -/
def IsTransmissions (w : BusWidth) (ops : List MicroOp) : Prop :=
  ∃ parts : List (List MicroOp), (∀ part ∈ parts, IsTransmission w part) ∧ ops = parts.flatten

theorem isTransmissions_nil (w : BusWidth) : IsTransmissions w [] := ⟨[], by simp, rfl⟩

theorem IsTransmissions.append {w : BusWidth} {ops more : List MicroOp} (h : IsTransmissions w ops)
    (h' : IsTransmissions w more) : IsTransmissions w (ops ++ more) := by
  obtain ⟨parts, hp, rfl⟩ := h
  obtain ⟨parts', hp', rfl⟩ := h'
  exact ⟨parts ++ parts', List.forall_mem_append.2 ⟨hp, hp'⟩, List.flatten_append.symm⟩

theorem Emits.isTransmissions {w : BusWidth} {i : Instr} {ops : List MicroOp} (h : Emits w i ops) :
    IsTransmissions w ops :=
  ⟨[ops], by simpa using h.isTransmission, by simp⟩

theorem isTransmissions_wakeUp (w : BusWidth) {d : Duration} (h : d ∈ [Duration.wake1, .wake2, .wake3]) :
    IsTransmissions w (wakeUp w d) := by
  cases w with
  | half => exact (emits_wakeNibble h).isTransmissions
  | full => exact (emits_wakeByte h).isTransmissions

theorem isTransmissions_functionSetFinal (w : BusWidth) (n : Bool) : IsTransmissions w (functionSetFinal w n) := by
  cases w with
  | half => exact emits_switchNibble.isTransmissions.append (emits_functionSet .half false n).isTransmissions
  | full => exact (emits_functionSet .full true n).isTransmissions

/-- After the power-on wait an INIT is transmissions (R141). -/
theorem initSeq_eq_powerOn (w : BusWidth) (n id sh : Bool) :
    ∃ ops, IsTransmissions w ops ∧ initSeq w n id sh = .wait .powerOn :: ops := by
  have wakeUps : IsTransmissions w (functionSetRetry3 w) :=
    ((isTransmissions_wakeUp w (by decide)).append (isTransmissions_wakeUp w (by decide))).append
      (isTransmissions_wakeUp w (by decide))
  exact ⟨_, (((wakeUps.append (isTransmissions_functionSetFinal w n)).append
    (emits_displayControl w false false false).isTransmissions).append (emits_clearDisplay w).isTransmissions).append
    (emits_entryMode w id sh).isTransmissions, rfl⟩

theorem isTransmissions_writeSeq (w : BusWidth) (bytes : List Byte) : IsTransmissions w (writeSeq w bytes) := by
  induction bytes with
  | nil => exact isTransmissions_nil w
  | cons v rest ih => exact (emits_writeData w v).isTransmissions.append ih

end Sys2Proof.Machine
end

section
/-! SUPPORT. The assembler gives well-formed requests: only a WRITE has a bound, and `writeOf` keeps it (R101, R102). -/

namespace Sys2Proof.Machine

theorem bind_eq_ok {α β : Type} {x : Except AsmError α} {f : α → Except AsmError β} {b : β} (h : (x >>= f) = .ok b) :
    ∃ a, x = .ok a ∧ f a = .ok b := by
  cases x with
  | error e => cases h
  | ok a => exact ⟨a, rfl, h⟩

/-- Whatever requests the result holds are well-formed. -/
def GivesWellFormed (r : Except AsmError (List Instr)) : Prop :=
  ∀ is, r = .ok is → ∀ i ∈ is, i.wellFormed = true

theorem givesWellFormed_error (e : AsmError) : GivesWellFormed (.error e) := fun _ h => by cases h

theorem givesWellFormed_one {i : Instr} (hi : i.wellFormed = true) : GivesWellFormed (.ok [i]) := by
  intro is h
  cases h
  simpa using hi

/-- A line that assembles to one request. -/
theorem givesWellFormed_map {α : Type} {x : Except AsmError α} {f : α → Instr}
    (hx : ∀ a, x = .ok a → (f a).wellFormed = true) : GivesWellFormed (x.map fun a => [f a]) := by
  cases x with
  | error e => exact givesWellFormed_error e
  | ok a => exact givesWellFormed_one (hx a rfl)

/-- `writeOf` gives no WRITE of more than 4095 bytes (R101). -/
theorem writeOf_wellFormed {items : List Token} {i : Instr} (h : writeOf items = .ok i) : i.wellFormed = true := by
  obtain ⟨bytes, -, h⟩ := bind_eq_ok h
  split at h
  next hlen => cases h; exact decide_eq_true hlen
  next => cases h

theorem asmInit_wellFormed {lines dir shift : Token} {i : Instr} (h : asmInit lines dir shift = .ok i) :
    i.wellFormed = true := by
  obtain ⟨two, -, h⟩ := bind_eq_ok h
  obtain ⟨inc, -, h⟩ := bind_eq_ok h
  obtain ⟨sh, -, h⟩ := bind_eq_ok h
  cases h
  rfl

theorem asmDispctl_wellFormed {disp cursor blink : Token} {i : Instr} (h : asmDispctl disp cursor blink = .ok i) :
    i.wellFormed = true := by
  obtain ⟨d, -, h⟩ := bind_eq_ok h
  obtain ⟨c, -, h⟩ := bind_eq_ok h
  obtain ⟨b, -, h⟩ := bind_eq_ok h
  cases h
  rfl

/-- A PRINTAT is a SEEK and a WRITE (R102). -/
theorem printAt_wellFormed (a : Token) (items : List Token) : GivesWellFormed (do
    let addr ← addressOperand a
    let w ← writeOf items
    return [.seek addr, w]) := by
  intro is h
  obtain ⟨addr, -, h⟩ := bind_eq_ok h
  obtain ⟨w, hw, h⟩ := bind_eq_ok h
  cases h
  simpa [Instr.wellFormed] using writeOf_wellFormed hw

theorem asmMnemonic_wellFormed (m : List Char) (ops : List Token) : GivesWellFormed (asmMnemonic m ops) := by
  unfold asmMnemonic
  split_ifs
  · split
    · exact givesWellFormed_map fun _ => asmInit_wellFormed
    · exact givesWellFormed_error _
  · split
    · exact givesWellFormed_map fun _ => asmDispctl_wellFormed
    · exact givesWellFormed_error _
  · split
    · exact givesWellFormed_map fun _ _ => rfl
    · exact givesWellFormed_error _
  · exact givesWellFormed_map fun _ => writeOf_wellFormed
  · exact givesWellFormed_one rfl
  · exact givesWellFormed_error _
  · split
    · exact printAt_wellFormed _ _
    · exact givesWellFormed_error _
  · exact givesWellFormed_one rfl
  · exact givesWellFormed_error _
  · exact givesWellFormed_one rfl
  · exact givesWellFormed_error _
  · exact givesWellFormed_error _

end Sys2Proof.Machine
end

section
/-! The obligations of 30_encoding.md. -/

namespace Sys2Proof.Machine

/-- Settles O1: each row's fixed bits lead the decoder to the row, and its fields read back. -/
theorem decodeOfEncode : Obligations.DecodeOfEncode := by
  unfold Obligations.DecodeOfEncode
  intro i hi
  cases i with
  | init n id sh => exact decode_encode_init n id sh
  | setDisplayControl d c b => exact decode_encode_setDisplayControl d c b
  | seek a => exact decode_encode_seek a
  | write bytes => exact decode_encode_write (of_decide_eq_true hi)
  | busEntryModeSet id sh => exact decode_encode_busEntryModeSet id sh
  | busDisplayControl d c b => exact decode_encode_busDisplayControl d c b
  | busFunctionSet dl n => exact decode_encode_busFunctionSet dl n
  | busSetDdramAddress a => exact decode_encode_busSetDdramAddress a
  | busWriteData v => exact decode_encode_busWriteData v
  | abort | busClearDisplay | busWakeNibble | busSwitchNibble => rfl

/-- Settles O3: a packet has one row or none, and the decoder follows. -/
theorem decodeAgreesWithOpcodeMap : Obligations.DecodeAgreesWithOpcodeMap := by
  unfold Obligations.DecodeAgreesWithOpcodeMap
  intro p
  obtain ⟨i, hrows, hok, herr⟩ | ⟨hrows, r, hcause, hrej⟩ := followsMap p
  · have announced_of_ok {j : Instr} (hj : decode p = .ok j) : payloadIsAnnounced p := by
      by_contra hn
      rw [herr hn] at hj
      cases hj
    refine ⟨fun h => by simp [hrows] at h, fun _ => ⟨i.opcodeRow, hrows, ⟨fun h => ⟨i, hok h⟩, ?_⟩, fun j hj => ?_, herr⟩⟩
    · exact fun ⟨j, hj⟩ => announced_of_ok hj
    · have hij := (hok (announced_of_ok hj)).symm.trans hj
      cases hij
      rfl
  · exact ⟨fun _ => ⟨r, hrej, hcause⟩, fun h => absurd hrows h⟩

/-- Settles O18: an INIT is the power-on wait and then transmissions, every other expansion is transmissions alone. -/
theorem expansionsAreTableTransfers : Obligations.ExpansionsAreTableTransfers := by
  unfold Obligations.ExpansionsAreTableTransfers
  intro w i
  cases i with
  | init n id sh =>
    obtain ⟨ops, ⟨parts, hparts, rfl⟩, hseq⟩ := initSeq_eq_powerOn w n id sh
    exact ⟨parts, hparts, hseq⟩
  | setDisplayControl d c b => exact (emits_displayControl w d c b).isTransmissions
  | seek a => exact (emits_setDdramAddress w a).isTransmissions
  | write bytes => exact isTransmissions_writeSeq w bytes
  | abort | busClearDisplay | busEntryModeSet | busDisplayControl | busFunctionSet | busSetDdramAddress | busWriteData
  | busWakeNibble | busSwitchNibble => exact isTransmissions_nil w

/-- Settles O25: 0x01 is the byte of the row (R94). -/
theorem clearDisplayTransfer : Obligations.ClearDisplayTransfer := by
  unfold Obligations.ClearDisplayTransfer
  exact sendsByte_of_emits emits_clearDisplay

/-- Settles O26: the bytes are EM, DC and SDA (R93, R95, R96). -/
theorem commandByteTransfers : Obligations.CommandByteTransfers := by
  unfold Obligations.CommandByteTransfers
  refine ⟨fun id sh => ?_, fun d c b => ?_, fun a => ?_⟩
  · exact sendsByte_of_emits fun w => emits_entryMode w id sh
  · exact sendsByte_of_emits fun w => emits_displayControl w d c b
  · exact sendsByte_of_emits fun w => emits_setDdramAddress w a

/-- Settles O27: the row sends its byte as data (R97). -/
theorem dataByteTransfer : Obligations.DataByteTransfer := by
  unfold Obligations.DataByteTransfer
  exact fun v => sendsByte_of_emits fun w => emits_writeData w v

/-- Settles O28: the byte is FS with F = 0, on FULL also with the wait of a wake-up (R92, R98). -/
theorem functionSetTransfer : Obligations.FunctionSetTransfer := by
  unfold Obligations.FunctionSetTransfer
  refine ⟨fun dl n => ?_, fun d hwake s rest hw hd ha => ?_⟩
  · rw [← functionSet_noFont]
    exact sendsByte_of_emits fun w => emits_functionSet w dl n
  · have hemits : Emits s.width (.busFunctionSet true false) (sendByte .full false 0x30#8 d) := by
      rw [hw]
      exact emits_wakeByte hwake
    have hlines : s.out.d.length = BusWidth.full.lines := by rw [hd.1.dataLines, hw]
    rw [exec_emitted hemits hd ha, drive_sendByte .full false 0x30#8 d hlines]
    rfl

/-- Settles O29: the lone nibbles are rows of HALF only (R98). -/
theorem nibbleTransfers : Obligations.NibbleTransfers := by
  unfold Obligations.NibbleTransfers
  exact ⟨fun d hwake => sendsNibble_of_emits (emits_wakeNibble hwake), sendsNibble_of_emits emits_switchNibble⟩

/-- Settles O56: a line that assembles is empty or a mnemonic with its operands. -/
theorem assemblerOutputIsWellFormed : Obligations.AssemblerOutputIsWellFormed := by
  unfold Obligations.AssemblerOutputIsWellFormed
  intro line is h
  obtain ⟨tokens, -, h⟩ := bind_eq_ok h
  split at h
  · cases h
    simp
  · obtain ⟨ops, -, h⟩ := bind_eq_ok h
    exact asmMnemonic_wellFormed _ ops is h
  · cases h

/-- Settles O4: the decoder rejects the word for its opcode. -/
theorem reservedOpcodeIsRefused : Obligations.ReservedOpcodeIsRefused := by
  unfold Obligations.ReservedOpcodeIsRefused
  intro s q payload rest hop hr hd
  exact step_rejectedRequest hr hd (decode_reservedOpcode payload hop)

/-- Settles O5: the decoder rejects the word for its reserved bits. -/
theorem reservedBitsAreRefused : Obligations.ReservedBitsAreRefused := by
  unfold Obligations.ReservedBitsAreRefused
  intro s q payload rest hbits hr hd
  have hrej : decode (.request q payload) = .error .reservedBits := by
    obtain ⟨hop, hres⟩ | ⟨hop, hres⟩ | ⟨hop, hres⟩ | ⟨hop, hres⟩ := hbits
    · exact (decode_initWord payload hop).trans (oneWord_reserved hres _ _)
    · exact (decode_displayControlWord payload hop).trans (oneWord_reserved hres _ _)
    · exact (decode_seekWord payload hop).trans (oneWord_reserved hres _ _)
    · exact (decode_abortWord payload hop).trans (oneWord_reserved hres _ _)
  exact step_rejectedRequest hr hd hrej

/-- Settles O7: the four zeros in front of the count leave its value. -/
theorem responseWords : Obligations.ResponseWords := by
  unfold Obligations.ResponseWords
  refine ⟨fun c => ⟨?_, rfl⟩, fun e => ⟨rfl, rfl⟩⟩
  rw [Response.word, append_toNat]
  simp

/-- Settles O8: OR into zero bits is the same as setting the fields side by side. -/
theorem controllerBytesAreTheirRows : Obligations.ControllerBytesAreTheirRows := by
  unfold Obligations.ControllerBytesAreTheirRows
  exact ⟨by decide, by decide, rfl, by decide, encode_busSetDdramAddress, fun _ => rfl, rfl, rfl⟩

/-- Settles O23: the length check of WRITE (log 19). -/
theorem overlongWriteIsRefused : Obligations.OverlongWriteIsRefused := by
  unfold Obligations.OverlongWriteIsRefused
  intro bytes s h
  exact if_neg (Nat.not_le.2 h)

/-- Settles O57: a request whose payload is not the announced one does not decode, whatever its word. -/
theorem payloadMismatchIsRefused : Obligations.PayloadMismatchIsRefused := by
  unfold Obligations.PayloadMismatchIsRefused
  intro s q payload rest hlen hr hd
  obtain ⟨-, -, -, herr⟩ | ⟨-, r, -, hrej⟩ := followsMap (.request q payload)
  · exact step_rejectedRequest hr hd (herr hlen)
  · exact step_rejectedRequest hr hd hrej

end Sys2Proof.Machine
end

section
/-! SUPPORT. The sizes of the framer's lists and of the expansions (R127, R141), and the arithmetic of the nibble split (R126). -/

namespace Sys2Proof.Machine

/-! ## Micro-operations, PinWrites and strobes of a list -/

/-- The three columns of R127's table: how many micro-operations, PinWrites and strobes a list has. -/
def sizesOf (ops : List MicroOp) : Nat × Nat × Nat := (ops.length, pinWriteCount ops, strobeCount ops)

theorem sizesOf_eq_iff {ops : List MicroOp} {l p e : Nat} :
    sizesOf ops = (l, p, e) ↔ ops.length = l ∧ pinWriteCount ops = p ∧ strobeCount ops = e := by
  simp [sizesOf]

@[simp] theorem sizesOf_append (ops more : List MicroOp) : sizesOf (ops ++ more) = sizesOf ops + sizesOf more := by
  simp [sizesOf, pinWriteCount, strobeCount]

theorem sizesOf_pinWrite {p : Line} (h : p ≠ .e) (l : Bool) (ops : List MicroOp) :
    sizesOf (.pinWrite p l :: ops) = sizesOf ops + (1, 1, 0) := by
  simp [sizesOf, strobeCount, h]

/-- `Present` writes each of its lines once, and none of them is E (R120). -/
theorem sizesOf_presentFrom {n : Nat} (v : BitVec n) (j k : Nat) : sizesOf (presentFrom v j k) = (k, k, 0) := by
  induction k generalizing j with
  | zero => rfl
  | succ k ih => rw [presentFrom, sizesOf_pinWrite (by simp), ih]; rfl

theorem sizesOf_present {k : Nat} (v : BitVec k) : sizesOf (present v) = (k, k, 0) := sizesOf_presentFrom v 0 k

theorem sizesOf_strobe (d : Duration) : sizesOf (strobe d) = (4, 2, 1) := rfl

theorem sizesOf_present_strobe {k : Nat} (v : BitVec k) (d : Duration) :
    sizesOf (present v ++ strobe d) = (k + 4, k + 2, 1) := by
  rw [sizesOf_append, sizesOf_present, sizesOf_strobe]; rfl

/-! ## The primitives (R127) -/

@[simp] theorem sizesOf_sendNibble (rs : Bool) (x : Nibble) (d : Duration) : sizesOf (sendNibble rs x d) = (9, 7, 1) := by
  rw [sendNibble, sizesOf_pinWrite (by simp), sizesOf_present_strobe]; rfl

@[simp] theorem sizesOf_sendByteHalf (rs : Bool) (v : Byte) (d : Duration) :
    sizesOf (sendByteHalf rs v d) = (17, 13, 2) := by
  rw [sendByteHalf_eq, sizesOf_pinWrite (by simp), sizesOf_append, sizesOf_present_strobe, sizesOf_present_strobe]; rfl

@[simp] theorem sizesOf_sendByteFull (rs : Bool) (v : Byte) (d : Duration) :
    sizesOf (sendByteFull rs v d) = (13, 11, 1) := by
  rw [sendByteFull, sizesOf_pinWrite (by simp), sizesOf_present_strobe]; rfl

/-! ## The expansions -/

/-- An INIT is the power-on wait, on HALF four nibbles and four bytes, on FULL seven bytes (R141). -/
theorem sizesOf_initSeq (w : BusWidth) (n id sh : Bool) :
    sizesOf (initSeq w n id sh) = if w = .half then (105, 80, 12) else (92, 77, 7) := by
  have hwait : sizesOf powerOnWait = (1, 0, 0) := rfl
  cases w <;> simp [initSeq, functionSetRetry3, wakeUp, functionSetFinal, displayOff, clearDisplayStep, entryModeStep,
    sendByte, hwait]

theorem initSeq_length_le (w : BusWidth) (n id sh : Bool) : (initSeq w n id sh).length ≤ 105 := by
  calc (initSeq w n id sh).length = (sizesOf (initSeq w n id sh)).1 := rfl
    _ ≤ 105 := by rw [sizesOf_initSeq]; split <;> decide

theorem sendByte_length_le (w : BusWidth) (rs : Bool) (v : Byte) (d : Duration) : (sendByte w rs v d).length ≤ 17 := by
  rw [sendByte_length]
  split <;> decide

theorem writeSeq_length (w : BusWidth) (bytes : List Byte) :
    (writeSeq w bytes).length = bytes.length * if w = .half then 17 else 13 := by
  induction bytes with
  | nil => rw [writeSeq, List.length_nil, List.length_nil, Nat.zero_mul]
  | cons v rest ih => rw [writeSeq, List.length_append, ih, sendByte_length, List.length_cons, Nat.succ_mul, Nat.add_comm]

theorem writeSeq_length_le (w : BusWidth) (bytes : List Byte) : (writeSeq w bytes).length ≤ bytes.length * 17 := by
  rw [writeSeq_length]
  exact Nat.mul_le_mul_left _ (by split <;> decide)

/-! ## The nibble split (R126) -/

theorem highNibble_append_lowNibble (v : Byte) : highNibble v ++ lowNibble v = v := by
  rw [highNibble, lowNibble, BitVec.extractLsb'_append_extractLsb'_eq_extractLsb' (by decide), BitVec.extractLsb'_eq_self]

theorem toNat_and_lowMask (v : Byte) : (v &&& 0xF#8).toNat = v.toNat % 2 ^ 4 := by
  rw [BitVec.toNat_and]
  exact Nat.and_two_pow_sub_one_eq_mod v.toNat 4

theorem highNibble_toNat (v : Byte) : (highNibble v).toNat = (v >>> 4 &&& 0xF#8).toNat := by
  rw [toNat_and_lowMask, highNibble, BitVec.extractLsb'_toNat, BitVec.toNat_ushiftRight]

theorem lowNibble_toNat (v : Byte) : (lowNibble v).toNat = (v &&& 0xF#8).toNat := by
  rw [toNat_and_lowMask, lowNibble, BitVec.extractLsb'_toNat, Nat.shiftRight_zero]

end Sys2Proof.Machine
end

section
/-! The obligations of 40_bus_framer.md. -/

namespace Sys2Proof.Machine

/-- Settles O13: RS is written, then each part of the byte is presented and strobed, which latches it once. -/
theorem transmissionLatchesItsTransfers : Obligations.TransmissionLatchesItsTransfers := by
  unfold Obligations.TransmissionLatchesItsTransfers
  intro w rs v d o h
  exact latchedFrom_sendByte w rs v d h

/-- Settles O42: at most 105 micro-operations for an INIT, 17 for one byte, and 17 for each of the 4095 bytes of a WRITE. -/
theorem sequenceIsBounded : Obligations.SequenceIsBounded := by
  unfold Obligations.SequenceIsBounded
  refine ⟨fun s h => ?_, fun bytes h => by rw [writeSeq_length, h]; rfl⟩
  cases hop : s.curOp <;> simp only [State.SeqIsExpansion, hop] at h
  case none => simp [h]
  case init => exact h ▸ (initSeq_length_le s.width _ _ _).trans (by decide)
  case setDisplayControl =>
    obtain ⟨d, c, b, hseq⟩ := h
    exact hseq ▸ (sendByte_length_le s.width false _ .wait).trans (by decide)
  case seek =>
    obtain ⟨a, hseq⟩ := h
    exact hseq ▸ (sendByte_length_le s.width false _ .wait).trans (by decide)
  case write =>
    obtain ⟨bytes, hlen, -, hseq⟩ := h
    exact hseq ▸ (writeSeq_length_le s.width bytes).trans (Nat.mul_le_mul_right 17 hlen)

/-- Settles O10: the two extracts meet at bit 4, and the mask 0xF is the remainder by 16. -/
theorem nibblesRebuildByte : Obligations.NibblesRebuildByte := by
  unfold Obligations.NibblesRebuildByte
  exact fun v => ⟨highNibble_append_lowNibble v, highNibble_toNat v, lowNibble_toNat v⟩

/-- Settles O11: each list is what the framer computes. -/
theorem framerExamples : Obligations.FramerExamples := by
  unfold Obligations.FramerExamples
  exact ⟨rfl, rfl, rfl, rfl⟩

/-- Settles O12: a transmission is the write of RS, then `Present` and `Strobe` once or twice; an INIT is transmissions. -/
theorem primitiveLengths : Obligations.PrimitiveLengths := by
  unfold Obligations.PrimitiveLengths
  refine ⟨fun rs x d => ?_, fun rs v d => ?_, fun rs v d => ?_, fun n id sh => ?_, fun n id sh => ?_⟩
  · exact sizesOf_eq_iff.1 (sizesOf_sendNibble rs x d)
  · exact sizesOf_eq_iff.1 (sizesOf_sendByteHalf rs v d)
  · exact sizesOf_eq_iff.1 (sizesOf_sendByteFull rs v d)
  · exact sizesOf_eq_iff.1 (sizesOf_initSeq .half n id sh)
  · exact sizesOf_eq_iff.1 (sizesOf_initSeq .full n id sh)

end Sys2Proof.Machine
end

section
/-! SUPPORT. The bytes of the final function set (R144), and INIT's word and admission (R82, R140). -/

namespace Sys2Proof.Machine

/-- The final function set on HALF (R144). -/
theorem functionSet_half (n : Bool) : functionSet false n false = if n then 0x28#8 else 0x20#8 := by cases n <;> rfl

/-- The final function set on FULL (R144). -/
theorem functionSet_full (n : Bool) : functionSet true n false = if n then 0x38#8 else 0x30#8 := by cases n <;> rfl

/-- OR into zero bits is the same as setting the fields side by side (R82). -/
theorem encode_init (n id sh : Bool) : encode (.init n id sh) =
    .request (0x1000#16 ||| (BitVec.ofBool n).zeroExtend 16 <<< 2 ||| (BitVec.ofBool id).zeroExtend 16 <<< 1 |||
      (BitVec.ofBool sh).zeroExtend 16) [] := by
  revert n id sh
  decide

/-- An INIT outside an operation is admitted (R140); its expansion is not empty, so it does not complete at once. -/
theorem exec_init_idle {n id sh : Bool} {s : State} (hb : s.busy = false) :
    exec (.init n id sh) s = .next { s with
      cfgN := n, cfgId := id, cfgS := sh, curOp := .init, phase := .initSeq, seq := initSeq s.width n id sh, upc := 0 } := by
  have admitted : s.admitsInit = true := by rw [State.admitsInit_eq, hb]; rfl
  rw [exec, execInit, if_pos admitted, State.startOp_inside _ _ _ (initSeq_ne_nil s.width n id sh)]

end Sys2Proof.Machine
end

section
/-! The obligations of 41_init_sequencer.md. -/

namespace Sys2Proof.Machine

/-- Settles O16: an INIT latches `initLatches`, whose final function set has the value of its width. -/
theorem initLatchesItsTransfers : Obligations.InitLatchesItsTransfers := by
  unfold Obligations.InitLatchesItsTransfers
  refine fun n id sh o => ⟨fun h => ?_, fun h => ?_⟩
  · rw [latchedFrom_initSeq .half n id sh h, ← functionSet_half]
    rfl
  · rw [latchedFrom_initSeq .full n id sh h, ← functionSet_full]
    rfl

/-- Settles O9: the line count is or-ed in at bit 3 alone. -/
theorem lineCountIsBitThree : Obligations.LineCountIsBitThree := by
  unfold Obligations.LineCountIsBitThree
  decide

/-- Settles O19: UNINIT and READY are the phases without an operation in progress. -/
theorem initAdmission : Obligations.InitAdmission := by
  unfold Obligations.InitAdmission
  refine fun n id sh s => ⟨encode_init n id sh, fun h => ?_, fun h => ?_⟩
  · exact exec_init_idle (s.busy_eq_false_iff.2 h)
  · exact exec_init_busy (s.busy_eq_true_iff.2 h)

end Sys2Proof.Machine
end

section
/-! SUPPORT. What a WRITE latches, whole and cut short (R163, R165), and the effect of the commands and of ABORT in each phase
(R160 to R166). -/

namespace Sys2Proof.Machine

/-! ## The expansion of a WRITE -/

theorem writeSeq_append (w : BusWidth) (bytes more : List Byte) :
    writeSeq w (bytes ++ more) = writeSeq w bytes ++ writeSeq w more := by
  induction bytes with
  | nil => rfl
  | cons v bytes ih => rw [List.cons_append, writeSeq, ih, writeSeq, List.append_assoc]

theorem writeSeq_eq_flatten (w : BusWidth) (bytes : List Byte) :
    writeSeq w bytes = (bytes.map fun v => sendByte w true v .wait).flatten := by
  induction bytes with
  | nil => rfl
  | cons v bytes ih => rw [writeSeq, ih, List.map_cons, List.flatten_cons]

theorem writeSeq_ne_nil (w : BusWidth) {bytes : List Byte} (h : bytes ≠ []) : writeSeq w bytes ≠ [] := by
  obtain ⟨v, rest, rfl⟩ := List.exists_cons_of_ne_nil h
  obtain ⟨ops, hops⟩ := writeSeq_cons w v rest
  rw [hops]
  exact List.cons_ne_nil _ _

/-- A WRITE latches the transfers of its bytes, in order (R163). -/
theorem latchedFrom_writeSeq (w : BusWidth) (bytes : List Byte) {o : OutLines} (h : o.d.length = w.lines) :
    latchedFrom o (allOk (writeSeq w bytes)) = bytes.flatMap (transfersOf w true) := by
  induction bytes generalizing o with
  | nil => rfl
  | cons v bytes ih =>
    rw [writeSeq, allOk_append, latchedFrom_append, latchedFrom_sendByte w true v .wait h,
      ih ((foldl_drive_length _ _).trans h), List.flatMap_cons]

/-! ## A transmission cut short -/

/-- Without the end of a strobe nothing is latched (R74). -/
theorem latchedFrom_noStrobeEnd {ops : List MicroOp} (h : .pinWrite .e false ∉ ops) (o : OutLines) :
    latchedFrom o (allOk ops) = [] := by
  induction ops generalizing o with
  | nil => rfl
  | cons op ops ih =>
    obtain ⟨hop, hops⟩ := not_or.1 (mt List.mem_cons.2 h)
    simp [allOk_cons, latchedFrom, TraceEntry.isEdge, Ne.symm hop, ih hops]

theorem strobeEnd_notMem_present {k : Nat} (v : BitVec k) : .pinWrite .e false ∉ present v := by
  intro h
  obtain ⟨i, -, hi⟩ := presentFrom_mem v 0 k _ h
  cases hi

/-- A value that is presented and strobed is latched with the end of the strobe, `k + 3` micro-operations in: not before it,
and not again in the wait after it. -/
theorem latchedFrom_take_present_strobe {k : Nat} (v : BitVec k) (d : Duration) (e rs : Level) {ds : List Level}
    (h : ds.length = k) (j : Nat) :
    latchedFrom ⟨e, rs, ds⟩ (allOk ((present v ++ strobe d).take j)) =
      [(⟨rs, levelsOf v⟩ : Latch)].take (if j < k + 3 then 0 else 1) := by
  have hlength : (present v).length = k := presentFrom_length v 0 k
  rw [List.take_append, hlength, allOk_append, latchedFrom_append,
    latchedFrom_noStrobeEnd fun hm => strobeEnd_notMem_present v (List.mem_of_mem_take hm), List.nil_append]
  by_cases hj : j < k + 3
  · have hcut : .pinWrite .e false ∉ (strobe d).take (j - k) := fun hm =>
      absurd (List.take_subset_take_left (strobe d) (show j - k ≤ 2 by omega) hm) (by simp [strobe])
    rw [latchedFrom_noStrobeEnd hcut, if_pos hj, List.take_zero]
  · rw [if_neg hj, List.take_of_length_le (by omega : (present v).length ≤ j), drive_present v e rs h]
    obtain ⟨i, hi⟩ : ∃ i, j - k = i + 3 := ⟨j - k - 3, by omega⟩
    rw [hi]
    cases i with
    | zero => rfl
    | succ i => rw [List.take_of_length_le (show 4 ≤ i + 4 by omega)]; rfl

/-- How many strobes of a transmission have ended after its first `j` micro-operations (R123, R124). -/
def strobesEnded (w : BusWidth) (j : Nat) : Nat :=
  match w with
  | .half => if j < 8 then 0 else if j < 16 then 1 else 2
  | .full => if j < 12 then 0 else 1

/-- A transmission cut short has latched one transfer for each strobe that had ended (R66). -/
theorem latchedFrom_take_sendByte (w : BusWidth) (rs : Bool) (v : Byte) (d : Duration) {o : OutLines}
    (h : o.d.length = w.lines) (j : Nat) :
    latchedFrom o (allOk ((sendByte w rs v d).take j)) = (transfersOf w rs v).take (strobesEnded w j) := by
  cases j with
  | zero => cases w <;> rfl
  | succ j =>
    cases w with
    | full =>
      have hcount : strobesEnded .full (j + 1) = if j < 8 + 3 then 0 else 1 := by
        simp only [strobesEnded]
        split_ifs <;> omega
      rw [sendByte, sendByteFull, List.take_succ_cons, latchedFrom_rs, latchedFrom_take_present_strobe v d _ _ h, hcount]
      rfl
    | half =>
      have hhigh : (present (highNibble v) ++ strobe .wait).length = 8 := rfl
      rw [sendByte, sendByteHalf_eq, List.take_succ_cons, latchedFrom_rs, List.take_append, allOk_append, latchedFrom_append,
        latchedFrom_take_present_strobe (highNibble v) .wait _ _ h, hhigh]
      by_cases hj : j < 8
      · have hcount : strobesEnded .half (j + 1) = if j < 4 + 3 then 0 else 1 := by
          simp only [strobesEnded]
          split_ifs <;> omega
        rw [Nat.sub_eq_zero_of_le hj.le, hcount]
        split <;> rfl
      · have hcount : strobesEnded .half (j + 1) = (if j - 8 < 4 + 3 then 0 else 1) + 1 := by
          simp only [strobesEnded]
          split_ifs <;> omega
        rw [List.take_of_length_le (hhigh.trans_le (not_lt.1 hj)), drive_present_strobe (highNibble v) .wait _ _ h,
          latchedFrom_take_present_strobe (lowNibble v) d _ _ (levelsOf_length _), if_neg (by omega : ¬ j < 4 + 3), hcount]
        rfl

/-- A WRITE cut short inside the byte `v` has latched the bytes before it in full, and of `v` what its strobes that had ended
latched (R165). -/
theorem latchedFrom_cutWrite (w : BusWidth) (before after : List Byte) (v : Byte) {j : Nat} {o : OutLines}
    (h : o.d.length = w.lines) (hj : j ≤ (sendByte w true v .wait).length) :
    latchedFrom o (allOk ((writeSeq w (before ++ v :: after)).take ((writeSeq w before).length + j))) =
      before.flatMap (transfersOf w true) ++ (transfersOf w true v).take (strobesEnded w j) := by
  rw [writeSeq_append, List.take_length_add_append, writeSeq, List.take_append_of_le_length hj, allOk_append,
    latchedFrom_append, latchedFrom_writeSeq w before h,
    latchedFrom_take_sendByte w true v .wait ((foldl_drive_length _ _).trans h)]

/-! ## Admission of a command (R160) -/

theorem State.command_ready {s : State} (hp : s.phase = .ready) (op : CurOp) (len : Count) {ops : List MicroOp}
    (h : ops ≠ []) :
    s.command op len ops = { s with wrLen := len, curOp := op, phase := .opSeq, seq := ops, upc := 0 } := by
  obtain ⟨-, e⟩ | ⟨hn, -⟩ := command_cases s op len ops
  · rw [e, startOp_inside _ _ _ h]
  · exact absurd hp hn

/-- An empty WRITE in READY completes at once with the count 0 (R164; log 11). -/
theorem State.command_ready_emptyWrite {s : State} (hp : s.phase = .ready) :
    s.command .write 0#12 [] =
      { s with curOp := .none, seq := [], upc := 0, wrLen := 0#12, respLog := s.respLog ++ [.ok 0#12] } := by
  obtain ⟨-, e⟩ | ⟨hn, -⟩ := command_cases s .write 0#12 []
  · rw [e, startOp_nil, complete_eq, ← hp]
    rfl
  · exact absurd hp hn

theorem exec_write_of_length_le {bytes : List Byte} (h : bytes.length ≤ 4095) (s : State) :
    exec (.write bytes) s = .next (s.command .write (BitVec.ofNat 12 bytes.length) (writeSeq s.width bytes)) :=
  if_pos h

/-! ## ABORT (R166) -/

theorem CurOp.phaseAfterStop_eq (op : CurOp) : op.phaseAfterStop = if op = .init then .uninit else .ready := by
  cases op <;> rfl

/-- The block is suspended when an operation is in progress and stands at a Wait (log 13). -/
theorem State.suspended_iff (s : State) : s.suspended = true ↔ s.busy = true ∧ ∃ d, s.seq[s.upc]? = some (.wait d) := by
  unfold suspended nextOp
  split
  case h_1 d hd => simp [hd]
  case h_2 hno => simpa using fun _ d hd => hno d hd

theorem exec_abort_suspended {s : State} (h : s.suspended = true) :
    exec .abort s = .next (s.endOp s.curOp.phaseAfterStop) := if_pos h

theorem exec_abort_notSuspended {s : State} (h : ¬ s.suspended = true) : exec .abort s = .next s := if_neg h

end Sys2Proof.Machine
end

section
/-! The obligations of 42_commands.md. -/

namespace Sys2Proof.Machine

/-- Settles O14: by induction on the payload, each transmission latches its byte and leaves the bus its lines. -/
theorem writeLatchesItsPayload : Obligations.WriteLatchesItsPayload := by
  unfold Obligations.WriteLatchesItsPayload
  intro w bytes o h
  exact latchedFrom_writeSeq w bytes h

/-- Settles O15: the cut falls inside one transmission, after 17 micro-operations for each byte before it on HALF and 13 on
FULL. -/
theorem cutWriteLatchesWholeBytesBefore : Obligations.CutWriteLatchesWholeBytesBefore := by
  unfold Obligations.CutWriteLatchesWholeBytesBefore
  refine ⟨fun before after v j o h hj => ?_, fun before after v j o h hj => ?_⟩
  · have hbefore : (writeSeq .half before).length = 17 * before.length := by rw [writeSeq_length, Nat.mul_comm]; rfl
    rw [← hbefore]
    exact latchedFrom_cutWrite .half before after v h hj.le
  · have hbefore : (writeSeq .full before).length = 13 * before.length := by rw [writeSeq_length, Nat.mul_comm]; rfl
    rw [← hbefore]
    exact latchedFrom_cutWrite .full before after v h hj.le

/-- Settles O20: in READY the transmission of the display-control byte starts; it is not empty, so it does not complete at
once. -/
theorem displayControlAdmission : Obligations.DisplayControlAdmission := by
  unfold Obligations.DisplayControlAdmission
  refine fun d c b s => ⟨fun h => ?_, fun h => ?_⟩
  · rw [exec, execSetDisplayControl, State.command_ready h _ _ (displayControlSeq_ne_nil s.width d c b)]
    rfl
  · rw [exec, execSetDisplayControl, State.command_notReady h]
    rfl

/-- Settles O21: in READY the transmission of the address byte starts; it is not empty, so it does not complete at once. -/
theorem seekAdmission : Obligations.SeekAdmission := by
  unfold Obligations.SeekAdmission
  refine fun a s => ⟨fun h => ?_, fun h => ?_⟩
  · rw [exec, execSeek, State.command_ready h _ _ (seekSeq_ne_nil s.width a)]
    rfl
  · rw [exec, execSeek, State.command_notReady h]
    rfl

/-- Settles O22: in READY the transmissions of the bytes are admitted, and no bytes complete at once. -/
theorem writeAdmission : Obligations.WriteAdmission := by
  unfold Obligations.WriteAdmission
  refine fun bytes s hlen => ⟨fun h hne => ?_, fun h hnil => ?_, fun h => ?_⟩ <;> rw [exec_write_of_length_le hlen]
  · rw [State.command_ready h _ _ (writeSeq_ne_nil s.width hne), writeSeq_eq_flatten]
  · rw [hnil]
    exact congrArg Host.Outcome.next (State.command_ready_emptyWrite h)
  · rw [State.command_notReady h]
    rfl

/-- Settles O24: an ABORT acts exactly when the block is suspended, and UNINIT and READY have no operation in progress. -/
theorem abortEffect : Obligations.AbortEffect := by
  unfold Obligations.AbortEffect
  refine fun s => ⟨fun d hbusy hwait => ?_, fun h => ?_⟩
  · have hsus : s.suspended = true := s.suspended_iff.2 ⟨s.busy_eq_true_iff.2 hbusy, d, hwait⟩
    rw [exec_abort_suspended hsus, CurOp.phaseAfterStop_eq]
    rfl
  · refine exec_abort_notSuspended fun hs => ?_
    obtain ⟨hbusy, d, hwait⟩ := s.suspended_iff.1 hs
    obtain hidle | hno := or_assoc.2 h
    · exact Bool.false_ne_true ((s.busy_eq_false_iff.2 hidle).symm.trans hbusy)
    · exact hno d hwait

end Sys2Proof.Machine
end

section
/-! SUPPORT. The block's turn inside an operation of a coherent state with the host silent, and a PinWrite that fails: the
next one, or the first that does. -/

namespace Sys2Proof.Machine

/-- With the host silent, the step inside an operation is its micro-operation. -/
theorem State.Coherent.step_eq_microStep {s : State} (hc : s.Coherent) (hs : s.HostSilent) (hb : s.busy = true) :
    step s = .next s.microStep := by
  rw [step_silent hs hc.opsFit, if_pos hb]

/-- `s` with the operation in progress ended by a PinWrite that failed: its line is U, it is in the trace with its error, and
the error is the response (R194, R195). -/
def State.failed (s : State) (p : Line) (l : Bool) (e : PinErr) : State :=
  { s with
    out := s.out.set p .u, trace := s.trace ++ [⟨.pinWrite p l, .err e⟩],
    phase := if s.curOp = .init then .uninit else .ready,
    curOp := .none, seq := [], upc := 0, wrLen := 0#12, respLog := s.respLog ++ [.err e] }

theorem State.microStep_pinWrite_err {s : State} {p : Line} {l : Bool} {e : PinErr}
    (hn : s.nextOp = some (.pinWrite p l)) (ha : s.pinAnswer = .err e) :
    s.microStep = s.afterAnswer.failed p l e := by
  simp [microStep, hn, performPinWrite, ha, raisePeripheralError_eq, CurOp.phaseAfterStop_eq, record, failed]

theorem State.failed_admitsInit (s : State) (p : Line) (l : Bool) (e : PinErr) : (s.failed p l e).admitsInit = true := by
  rw [admitsInit_eq, Bool.not_eq_true', busy_eq_false_iff]
  by_cases h : s.curOp = .init
  · exact .inl (if_pos h)
  · exact .inr (if_neg h)

theorem State.failed_admitsCommand (s : State) (p : Line) (l : Bool) (e : PinErr) :
    (s.failed p l e).admitsCommand = true ↔ s.curOp ≠ .init := by
  rw [admitsCommand_eq, decide_eq_true_iff]
  by_cases h : s.curOp = .init <;> simp [failed, h]

theorem State.microSteps_add (s : State) (m n : Nat) : s.microSteps (m + n) = (s.microSteps m).microSteps n := by
  induction m generalizing s with
  | zero => rw [Nat.zero_add, microSteps_zero]
  | succ m ih =>
    cases hb : s.busy with
    | true => rw [Nat.succ_add, microSteps_succ s _ hb, microSteps_succ s _ hb, ih]
    | false => rw [microSteps_idle s _ hb, microSteps_idle s _ hb, microSteps_idle s _ hb]

theorem State.microSteps_one {s : State} (hb : s.busy = true) : s.microSteps 1 = s.microStep := by
  rw [microSteps_succ s 0 hb, microSteps_zero]

/-- `s` with the next `k` micro-operations performed ok and the operation still in progress; `rest` are the answers after
theirs. -/
def State.performedOk (s : State) (k : Nat) (rest : List PinAnswer) : State :=
  { s with
    out := (allOk ((s.seq.drop s.upc).take k)).foldl TraceEntry.drive s.out,
    trace := s.trace ++ allOk ((s.seq.drop s.upc).take k), answers := rest, upc := s.upc + k }

/-- Micro-operations answered ok that stop short of the sequence's end are performed, and leave the operation in progress. -/
theorem State.microSteps_take_answersOk {s : State} {k : Nat} {rest : List PinAnswer} (hb : s.busy = true)
    (hk : s.upc + k < s.seq.length) (ha : s.AnswersOk ((s.seq.drop s.upc).take k) rest) :
    s.microSteps k = s.performedOk k rest := by
  have hlen : ((s.seq.drop s.upc).take k).length = k := by rw [List.length_take, List.length_drop]; omega
  have hsteps := microSteps_answersOk hb (by omega) (List.take_prefix k _) ha
  rwa [hlen, sent, hlen, if_neg hk.ne] at hsteps

/-- Micro-operations up to the first PinWrite that fails: the ones before it are performed ok, and it ends the operation. -/
theorem State.microSteps_firstFailure {s : State} {k : Nat} {p : Line} {l : Bool} {e : PinErr} {rest : List PinAnswer}
    (hb : s.busy = true) (hn : s.seq[s.upc + k]? = some (.pinWrite p l))
    (ha : s.AnswersOk ((s.seq.drop s.upc).take k) (.err e :: rest)) :
    s.microSteps (k + 1) = (s.performedOk k rest).failed p l e := by
  obtain ⟨hk, -⟩ := List.getElem?_eq_some_iff.1 hn
  have hb' : (s.performedOk k (.err e :: rest)).busy = true := hb
  have hn' : (s.performedOk k (.err e :: rest)).nextOp = some (.pinWrite p l) := hn
  rw [microSteps_add, microSteps_take_answersOk hb hk ha, microSteps_one hb', microStep_pinWrite_err hn' rfl]
  rfl

end Sys2Proof.Machine
end

section
/-! The obligations of 60_exceptions.md. -/

namespace Sys2Proof.Machine

/-- Settles O33: the step is the micro-operation, which fails, and its equation gives the lines and what is admitted. -/
theorem peripheralErrorEntry : Obligations.PeripheralErrorEntry := by
  unfold Obligations.PeripheralErrorEntry
  intro s p l e hc hs hb hn ha
  have hstep : step s = .next (s.afterAnswer.failed p l e) := by
    rw [hc.step_eq_microStep hs hb, State.microStep_pinWrite_err hn ha]
  have hout : (s.afterAnswer.failed p l e).out = s.out.set p .u := by simp [State.failed]
  refine ⟨_, hstep, by simp [State.failed], ?_, fun q hq => ?_, State.failed_admitsInit _ p l e, ?_⟩
  · rw [hout, OutLines.get_set_same _ _ _ (hc.dataLine_lt hn)]
  · rw [hout, OutLines.get_set_other _ _ _ _ hq]
  · rw [State.failed_admitsCommand, State.afterAnswer_curOp]

/-- Settles O36: the steps are micro-operations; those before the failing PinWrite stop short of the sequence's end, so the
last one is that PinWrite. -/
theorem firstFailureEndsTheOperation : Obligations.FirstFailureEndsTheOperation := by
  unfold Obligations.FirstFailureEndsTheOperation
  intro s k p l e rest hc hs hb hn ha
  exact (run_silent hs hc.opsFit (k + 1)).trans (congrArg _ (State.microSteps_firstFailure hb hn ha))

/-- Settles O44: the step is the block's turn, which is a next state whether or not an operation is in progress. -/
theorem coherentSilentStatesStep : Obligations.CoherentSilentStatesStep := by
  unfold Obligations.CoherentSilentStatesStep
  intro s hc hs
  exact ⟨_, step_silent hs hc.opsFit⟩

/-- Settles O34: the step is the Wait, which takes no answer and advances. -/
theorem waitNeverFails : Obligations.WaitNeverFails := by
  unfold Obligations.WaitNeverFails
  intro s d hc hs hb hn
  rw [hc.step_eq_microStep hs hb, State.microStep_wait hn, State.advance_eq]
  rfl

end Sys2Proof.Machine
end

section
/-! SUPPORT. The sums of the Wait parameters of the framer's lists and of the expansions (R233), the bounds of R225 as one
statement about every duration, and the block's turn with no operation in progress. -/

namespace Sys2Proof.Machine

section waitSums

variable (ns : Duration → Nat)

/-! ## The Waits of the primitives -/

@[simp] theorem waitSumNs_append (ops more : List MicroOp) :
    waitSumNs ns (ops ++ more) = waitSumNs ns ops + waitSumNs ns more := by
  induction ops with
  | nil => exact (Nat.zero_add _).symm
  | cons op ops ih =>
    cases op with
    | pinWrite p l => exact ih
    | wait d => rw [List.cons_append, waitSumNs, waitSumNs, ih, Nat.add_assoc]

@[simp] theorem waitSumNs_pinWrite (p : Line) (l : Bool) (ops : List MicroOp) :
    waitSumNs ns (.pinWrite p l :: ops) = waitSumNs ns ops := rfl

/-- `Present` has no Wait (R120). -/
theorem waitSumNs_presentFrom {n : Nat} (v : BitVec n) (j k : Nat) : waitSumNs ns (presentFrom v j k) = 0 := by
  induction k generalizing j with
  | zero => rfl
  | succ k ih => exact ih (j + 1)

/-- A value presented and strobed waits for E's pulse and then for the strobe's own duration (R121). -/
theorem waitSumNs_present_strobe {k : Nat} (v : BitVec k) (d : Duration) :
    waitSumNs ns (present v ++ strobe d) = ns .pulse + ns d := by
  rw [waitSumNs_append, present, waitSumNs_presentFrom, Nat.zero_add]; rfl

theorem waitSumNs_sendNibble (rs : Bool) (x : Nibble) (d : Duration) :
    waitSumNs ns (sendNibble rs x d) = ns .pulse + ns d := by
  rw [sendNibble, waitSumNs_pinWrite, waitSumNs_present_strobe]

theorem waitSumNs_sendByteHalf (rs : Bool) (v : Byte) (d : Duration) :
    waitSumNs ns (sendByteHalf rs v d) = ns .pulse + ns .wait + (ns .pulse + ns d) := by
  rw [sendByteHalf_eq, waitSumNs_pinWrite, waitSumNs_append, waitSumNs_present_strobe, waitSumNs_present_strobe]

theorem waitSumNs_sendByteFull (rs : Bool) (v : Byte) (d : Duration) :
    waitSumNs ns (sendByteFull rs v d) = ns .pulse + ns d := by
  rw [sendByteFull, waitSumNs_pinWrite, waitSumNs_present_strobe]

/-- The Waits of one transmitted byte (R123, R124): on HALF those between its nibbles besides. -/
theorem waitSumNs_sendByte (w : BusWidth) (rs : Bool) (v : Byte) (d : Duration) : waitSumNs ns (sendByte w rs v d) =
    if w = .half then ns .pulse + ns .wait + (ns .pulse + ns d) else ns .pulse + ns d := by
  cases w with
  | half => exact waitSumNs_sendByteHalf ns rs v d
  | full => exact waitSumNs_sendByteFull ns rs v d

/-! ## The Waits of the expansions -/

/-- A wake-up is one strobe on either width (R98, R143). -/
theorem waitSumNs_wakeUp (w : BusWidth) (d : Duration) : waitSumNs ns (wakeUp w d) = ns .pulse + ns d := by
  cases w with
  | half => exact waitSumNs_sendNibble ns false wakeNibble d
  | full => exact waitSumNs_sendByteFull ns false _ d

theorem waitSumNs_functionSetRetry3 (w : BusWidth) :
    waitSumNs ns (functionSetRetry3 w) = 3 * ns .pulse + ns .wake1 + ns .wake2 + ns .wake3 := by
  simp only [functionSetRetry3, waitSumNs_append, waitSumNs_wakeUp]
  omega

/-- On HALF the switch nibble comes before the two nibbles of the byte (R144). -/
theorem waitSumNs_functionSetFinal (w : BusWidth) (n : Bool) : waitSumNs ns (functionSetFinal w n) =
    if w = .half then 3 * (ns .pulse + ns .wait) else ns .pulse + ns .wait := by
  cases w with
  | half =>
    rw [functionSetFinal, waitSumNs_append, waitSumNs_sendNibble, waitSumNs_sendByteHalf, if_pos rfl]
    omega
  | full => exact waitSumNs_sendByteFull ns false _ .wait

theorem waitSumNs_initSeq (w : BusWidth) (n id sh : Bool) : waitSumNs ns (initSeq w n id sh) =
    if w = .half then ns .powerOn + 12 * ns .pulse + ns .wake1 + ns .wake2 + ns .wake3 + 8 * ns .wait + ns .clear
    else ns .powerOn + 7 * ns .pulse + ns .wake1 + ns .wake2 + ns .wake3 + 3 * ns .wait + ns .clear := by
  have hwait : waitSumNs ns powerOnWait = ns .powerOn := rfl
  simp only [initSeq, displayOff, clearDisplayStep, entryModeStep, waitSumNs_append, hwait, waitSumNs_functionSetRetry3,
    waitSumNs_functionSetFinal, waitSumNs_sendByte]
  split <;> omega

/-- A byte sent with T_WAIT waits once for each of its strobes: two on HALF, one on FULL. -/
theorem waitSumNs_sendByte_wait (w : BusWidth) (rs : Bool) (v : Byte) : waitSumNs ns (sendByte w rs v .wait) =
    if w = .half then 2 * ns .pulse + 2 * ns .wait else ns .pulse + ns .wait := by
  rw [waitSumNs_sendByte]
  split <;> omega

theorem waitSumNs_writeSeq (w : BusWidth) (bytes : List Byte) : waitSumNs ns (writeSeq w bytes) =
    bytes.length * if w = .half then 2 * ns .pulse + 2 * ns .wait else ns .pulse + ns .wait := by
  induction bytes with
  | nil => exact (Nat.zero_mul _).symm
  | cons v rest ih =>
    rw [writeSeq, waitSumNs_append, waitSumNs_sendByte_wait, ih, List.length_cons, Nat.succ_mul rest.length, Nat.add_comm]

end waitSums

/-! ## The bounds of R225 -/

/-- The parameters meet R225 when the oscillator runs and no duration, of all there are, is below its bound. -/
theorem timingMeets_iff (ns : Duration → Nat) (v : Supply) (khz : Nat) :
    timingMeets ns v khz = true ↔ 0 < khz ∧ ∀ d, lowerBoundNsAt v khz d ≤ ns d := by
  have hall (d : Duration) : d ∈ [Duration.powerOn, .pulse, .wait, .wake1, .wake2, .wake3, .clear] := by
    cases d <;> decide
  simp only [timingMeets, Bool.and_eq_true, decide_eq_true_eq, List.all_eq_true, hall, forall_const]

/-- One duration below its bound, and the platform does not meet its duties (R228). -/
theorem Platform.dutiesMet_of_short {pf : Platform} {d : Duration}
    (h : pf.durationNs d < lowerBoundNsAt pf.supply pf.oscillatorKhz d) : pf.dutiesMet = false := by
  have htiming : timingMeets pf.durationNs pf.supply pf.oscillatorKhz = false :=
    Bool.eq_false_iff.2 fun hmeets => Nat.not_le_of_lt h (((timingMeets_iff _ _ _).1 hmeets).2 d)
  rw [dutiesMet, htiming]
  rfl

theorem ControllerView.mode_of_lost {v : ControllerView} (h : v.lost = true) : v.mode = .unknown := if_pos h

/-! ## The block's turn with no operation in progress -/

/-- With no operation in progress the block's turn changes nothing, whatever its sequence holds (R222). -/
theorem State.blockTurn_idle {s : State} (hb : s.busy = false) : s.blockTurn = .next s :=
  if_neg (ne_true_of_eq_false hb)

/-- With the host silent no packet is taken: the step is the block's turn. -/
theorem State.HostSilent.step_eq_blockTurn {s : State} (hs : s.HostSilent) : step s = s.blockTurn := by
  obtain ⟨hr, hi⟩ := hs
  simp only [step, hr, takeDue_empty hi, tickInbox_empty hi, Bool.false_eq_true, if_false]

end Sys2Proof.Machine
end

section
/-! The obligations of 70_reset_and_hazards.md. -/

namespace Sys2Proof.Machine

/-- Settles O55: a list's Waits are those of its strobes, E's pulse and one duration each; a WRITE has those of every byte. -/
theorem waitSums : Obligations.WaitSums := by
  unfold Obligations.WaitSums
  intro ns
  exact ⟨waitSumNs_initSeq ns .half, waitSumNs_initSeq ns .full,
    fun d c b => ⟨waitSumNs_sendByte_wait ns .half false (displayControl d c b),
      waitSumNs_sendByte_wait ns .full false (displayControl d c b)⟩,
    fun a => ⟨waitSumNs_sendByte_wait ns .half false (setDdramAddress a),
      waitSumNs_sendByte_wait ns .full false (setDdramAddress a)⟩,
    fun bytes => ⟨waitSumNs_writeSeq ns .half bytes, waitSumNs_writeSeq ns .full bytes⟩⟩

/-- Settles O59: with one duration short the platform does not meet its duties, so the controller is lost after any events,
completed INITs included. -/
theorem shortWaitsLeaveTheControllerUnspecified : Obligations.ShortWaitsLeaveTheControllerUnspecified := by
  unfold Obligations.ShortWaitsLeaveTheControllerUnspecified
  intro pf d hshort w o v events
  obtain ⟨hlost, hitems⟩ := v.after_unmet pf w o (Platform.dutiesMet_of_short hshort) events
  exact ⟨hlost, ControllerView.mode_of_lost hlost, hitems⟩

/-- Settles O51: no packet is taken, and the block's turn changes nothing. -/
theorem idleBlockWaits : Obligations.IdleBlockWaits := by
  unfold Obligations.IdleBlockWaits
  intro s hs hb
  rw [hs.step_eq_blockTurn, State.blockTurn_idle hb]

end Sys2Proof.Machine
end

section
/-! SUPPORT. A packet that decodes is put together again from its fields (30_encoding.md section 3), one lemma for each format;
and a table row's bits as a packet that is due at once (log 9, log 10). -/

namespace Sys2Proof.Machine

/-! ## Fields side by side -/

theorem fieldBit_getLsbD {w : Nat} (q : BitVec w) (k : Nat) : fieldBit (q.getLsbD k) = q.extractLsb' k 1 := by
  apply BitVec.eq_of_toNat_eq
  rw [fieldBit, BitVec.toNat_ofBool, BitVec.getLsbD, Nat.toNat_testBit, extract_toNat, pow_one]

theorem displayControlWord_fields {q : Word} (hop : q.extractLsb' 12 4 = 0x2#4) (hres : q.extractLsb' 3 9 = 0#9) :
    0b0010#4 ++ 0#9 ++ fieldBit (q.getLsbD 2) ++ fieldBit (q.getLsbD 1) ++ fieldBit (q.getLsbD 0) = q := by
  rw [← hop, ← hres]
  simp only [fieldBit_getLsbD, BitVec.extractLsb'_append_extractLsb'_eq_extractLsb', BitVec.extractLsb'_eq_self]

theorem seekWord_fields {q : Word} (hop : q.extractLsb' 12 4 = 0x3#4) (hres : q.extractLsb' 7 5 = 0#5) :
    0b0011#4 ++ 0#5 ++ q.extractLsb' 0 7 = q := by
  rw [← hop, ← hres]
  simp only [BitVec.extractLsb'_append_extractLsb'_eq_extractLsb', BitVec.extractLsb'_eq_self]

theorem writeWord_fields {q : Word} {len : Nat} (hop : q.extractLsb' 12 4 = 0x4#4)
    (hlen : len = (q.extractLsb' 0 12).toNat) : 0b0100#4 ++ BitVec.ofNat 12 len = q := by
  rw [hlen, BitVec.ofNat_toNat, BitVec.setWidth_eq, ← hop, BitVec.extractLsb'_append_extractLsb']

theorem abortWord_fields {q : Word} (hop : q.extractLsb' 12 4 = 0x5#4) (hres : q.extractLsb' 0 12 = 0#12) :
    0b0101#4 ++ 0#12 = q := by
  rw [← hop, ← hres, BitVec.extractLsb'_append_extractLsb']

theorem entryModeByte_fields {t : BitVec 9} (hrow : t.extractLsb' 2 7 = 0b0000001#7) :
    0b0000001#7 ++ fieldBit (t.getLsbD 1) ++ fieldBit (t.getLsbD 0) = t := by
  rw [← hrow]
  simp only [fieldBit_getLsbD, BitVec.extractLsb'_append_extractLsb'_eq_extractLsb', BitVec.extractLsb'_eq_self]

theorem displayControlByte_fields {t : BitVec 9} (hrow : t.extractLsb' 3 6 = 0b000001#6) :
    0b000001#6 ++ fieldBit (t.getLsbD 2) ++ fieldBit (t.getLsbD 1) ++ fieldBit (t.getLsbD 0) = t := by
  rw [← hrow]
  simp only [fieldBit_getLsbD, BitVec.extractLsb'_append_extractLsb'_eq_extractLsb', BitVec.extractLsb'_eq_self]

theorem functionSetByte_fields {t : BitVec 9} (hhigh : t.extractLsb' 5 4 = 0b0001#4) (hlow : t.extractLsb' 0 3 = 0#3) :
    0b0001#4 ++ fieldBit (t.getLsbD 4) ++ fieldBit (t.getLsbD 3) ++ 0b000#3 = t := by
  rw [← hhigh, ← hlow]
  simp only [fieldBit_getLsbD, BitVec.extractLsb'_append_extractLsb'_eq_extractLsb', BitVec.extractLsb'_eq_self]

theorem setDdramAddressByte_fields {t : BitVec 9} (hrs : t.getLsbD 8 = false) (htop : t.getLsbD 7 = true) :
    0b01#2 ++ t.extractLsb' 0 7 = t := by
  have hrow : fieldBit (t.getLsbD 8) ++ fieldBit (t.getLsbD 7) = 0b01#2 := by rw [hrs, htop]; rfl
  rw [← hrow]
  simp only [fieldBit_getLsbD, BitVec.extractLsb'_append_extractLsb'_eq_extractLsb', BitVec.extractLsb'_eq_self]

theorem writeDataByte_fields {t : BitVec 9} (hrs : t.getLsbD 8 = true) : 0b1#1 ++ t.extractLsb' 0 8 = t := by
  have hrow : fieldBit (t.getLsbD 8) = 0b1#1 := by rw [hrs]; rfl
  rw [← hrow, fieldBit_getLsbD, BitVec.extractLsb'_append_extractLsb']

/-! ## What a packet of each format decodes to -/

theorem encode_request_of_decode {q : Word} {payload : List Byte} {i : Instr} (h : decode (.request q payload) = .ok i) :
    encode i = .request q payload ∧ i.wellFormed = true := by
  obtain hop | hop | hop | hop | hop | hop := opcode_cases (q.extractLsb' 12 4)
  · rw [decode_reservedOpcode payload hop] at h
    cases h
  · obtain ⟨-, rfl, rfl⟩ := oneWord_eq_ok ((decode_initWord payload hop).symm.trans h)
    exact ⟨encode_init_of_decode h, rfl⟩
  · obtain ⟨hres, rfl, rfl⟩ := oneWord_eq_ok ((decode_displayControlWord payload hop).symm.trans h)
    exact ⟨congrArg (Packet.request · []) (displayControlWord_fields hop (bne_eq_false_iff_eq.1 hres)), rfl⟩
  · obtain ⟨hres, rfl, rfl⟩ := oneWord_eq_ok ((decode_seekWord payload hop).symm.trans h)
    exact ⟨congrArg (Packet.request · []) (seekWord_fields hop (bne_eq_false_iff_eq.1 hres)), rfl⟩
  · rw [decode_writeWord payload hop] at h
    split_ifs at h with hlen
    cases h
    have hbound : payload.length ≤ maxWriteLen := hlen ▸ Nat.le_of_lt_succ (q.extractLsb' 0 12).isLt
    exact ⟨congrArg (Packet.request · payload) (writeWord_fields hop hlen), decide_eq_true hbound⟩
  · obtain ⟨hres, rfl, rfl⟩ := oneWord_eq_ok ((decode_abortWord payload hop).symm.trans h)
    exact ⟨congrArg (Packet.request · []) (abortWord_fields hop (bne_eq_false_iff_eq.1 hres)), rfl⟩

theorem encode_busByte_of_decode {t : BitVec 9} {i : Instr} (h : decode (.busByte t) = .ok i) :
    encode i = .busByte t ∧ i.wellFormed = true := by
  rw [decode, decodeByte] at h
  split_ifs at h with hrs htop hfunction hdisplay hentry hclear <;> cases h <;>
    refine ⟨congrArg Packet.busByte ?_, rfl⟩
  · exact writeDataByte_fields hrs
  · exact setDdramAddressByte_fields (eq_false_of_ne_true hrs) htop
  · exact functionSetByte_fields hfunction.1 hfunction.2
  · exact displayControlByte_fields hdisplay
  · exact entryModeByte_fields hentry
  · exact hclear.symm

theorem encode_busNibble_of_decode {t : BitVec 5} {i : Instr} (h : decode (.busNibble t) = .ok i) :
    encode i = .busNibble t ∧ i.wellFormed = true := by
  rw [decode, decodeNibble] at h
  split_ifs at h with hwake hswitch <;> cases h
  · exact ⟨congrArg Packet.busNibble hwake.symm, rfl⟩
  · exact ⟨congrArg Packet.busNibble hswitch.symm, rfl⟩

/-! ## The bits of a table row -/

theorem decodeTableWord_eq_some {nbits w : Nat} {i : Instr} (h : decodeTableWord nbits w = some i) :
    ∃ p, tablePacket nbits w = some p ∧ decode p = .ok i := by
  unfold decodeTableWord at h
  split at h
  next p hp =>
    split at h
    next j hj =>
      cases h
      exact ⟨p, hp, hj⟩
    next => cases h
  next => cases h

theorem State.withFetchWord_of_decode (s : State) {nbits w : Nat} {p : Packet} {i : Instr}
    (hp : tablePacket nbits w = some p) (hi : decode p = .ok i) :
    s.withFetchWord nbits w = (s.placeTransfer i).placePacket p := by
  simp [withFetchWord, hp, hi]

/-- Placing a transfer leaves `st.refused` (R38). -/
@[simp] theorem State.placeTransfer_refused (s : State) (i : Instr) : (s.placeTransfer i).refused = s.refused := by
  unfold placeTransfer
  split <;> rfl

/-- A packet that is placed is the next one and due, in front of the others (log 5). -/
theorem State.placePacket_nextDue (s : State) (p : Packet) : (s.placePacket p).NextDue p s.inbox := ⟨_, rfl, .inl rfl⟩

end Sys2Proof.Machine
end

section
/-! The obligations of the decoder's other direction, the test vectors' words and the table's words. -/

namespace Sys2Proof.Machine

/-- Settles O2: the tests that lead the decoder to a row fix every bit that is no field, in each of the three formats. -/
theorem encodeOfDecode : Obligations.EncodeOfDecode := by
  unfold Obligations.EncodeOfDecode
  intro p i h
  cases p with
  | request q payload => exact encode_request_of_decode h
  | busByte t => exact encode_busByte_of_decode h
  | busNibble t => exact encode_busNibble_of_decode h

/-- Settles O6: each word or value of the vectors is the encoding of the instruction given with it. -/
theorem specWordsDecode : Obligations.SpecWordsDecode := by
  unfold Obligations.SpecWordsDecode
  exact ⟨decode_encode_init true true false, decode_encode_setDisplayControl true false false, decode_encode_seek 40#7,
    decode_encode_write (bytes := [0x41#8, 0x42#8]) (by decide), decodeOfEncode .abort rfl,
    decode_encode_busFunctionSet false true, decode_encode_busSetDdramAddress 40#7, decode_encode_busWriteData 0x41#8,
    decodeOfEncode .busWakeNibble rfl⟩

/-- Settles O53: `withFetchWord` makes the packet of the row's bits due, and the step runs what it decodes to (O52). -/
theorem stepRunsTheFetchedWord : Obligations.StepRunsTheFetchedWord := by
  unfold Obligations.StepRunsTheFetchedWord
  intro s nbits w i hr h
  obtain ⟨p, hp, hi⟩ := decodeTableWord_eq_some h
  have hrefused : ((s.placeTransfer i).placePacket p).refused = false := (s.placeTransfer_refused i).trans hr
  rw [s.withFetchWord_of_decode hp hi]
  exact stepRunsDecodedInstruction _ p _ i hrefused (State.placePacket_nextDue _ p) hi

end Sys2Proof.Machine
end
